-- ==== Sys2Proof/Word.lean ====
section
/-! DEFINITION. The word types of HOC-FC: a byte (8 bits) and the 32-bit pattern of a float field. -/

namespace Sys2Proof

/-- A byte: 8 bits, an unsigned value 0 to 255 (00_scope.md, Notation). -/
abbrev Byte := BitVec 8

/-- A 32-bit pattern, carried uninterpreted (10_state.md R21, 43_float_fields.md R130). -/
abbrev Word := BitVec 32

end Sys2Proof
end

