-- ==== Sys2Proof/Machine/Constants.lean ====
section
/-! DEFINITION. The wire contract's constants, each defined once (00_scope.md R6, 93_implementation_defined.md U11),
and the type of a frame. -/

namespace Sys2Proof.Machine

/-- FRAME_LEN: bytes in every outbound and every inbound frame (R6). -/
abbrev frameLen : Nat := 20

/-- CMD_OFFSET: offset of the command code in the outbound frame (R6). -/
abbrev cmdOffset : Nat := 0

/-- PAD_FIRST and PAD_LAST: outbound bytes that are always 0x00 (R6). -/
abbrev padFirst : Nat := 1

/-- PAD_LAST (R6). -/
abbrev padLast : Nat := 19

/-- IGN_FIRST: first of the inbound bytes no command reads (R6). -/
abbrev ignFirst : Nat := 0

/-- IGN_LAST (R6). -/
abbrev ignLast : Nat := 1

/-- ECHO_OFFSET: offset of the echoed command code in the inbound frame (R6). -/
abbrev echoOffset : Nat := 2

/-- PAYLOAD_OFFSET: offset of the first payload byte in the inbound frame (R6). -/
abbrev payloadOffset : Nat := 3

/-- PAYLOAD_MAX: usable payload bytes (R6). -/
abbrev payloadMax : Nat := 17

/-- FLOAT_LEN: bytes in one floating-point field (R6). -/
abbrev floatLen : Nat := 4

/-- FLAG_LEN: bytes in the relay flag field (R6). -/
abbrev flagLen : Nat := 1

/-- ALL_LEN: bytes in the combined reading (R6). -/
abbrev allLen : Nat := 13

/-- MS_OFF_V: payload offset of the voltage in a combined reading (R6). -/
abbrev msOffV : Nat := 0

/-- MS_OFF_I (R6). -/
abbrev msOffI : Nat := 4

/-- MS_OFF_P (R6). -/
abbrev msOffP : Nat := 8

/-- MS_OFF_RELAY (R6). -/
abbrev msOffRelay : Nat := 12

/-- CODE_WIDTH: bits in a command code (R6). -/
abbrev codeWidth : Nat := 8

/-- CLEAR_PATTERN: what an accepted `Issue` and `Reset` write to V, I and P (R8, R134). -/
abbrev clearPattern : Word := 0

/-- CLEAR_PATTERN for the one-byte registers RELAY and ECHO (R23, R26). -/
abbrev clearByte : Byte := 0

/-- A command code: CODE_WIDTH bits (R6, 30_encoding.md R70). It fills one byte of a frame. -/
abbrev Code := BitVec codeWidth

/-- Bits in a frame on the wires: FRAME_LEN bytes of 8 bits, `xfer_tx[159:0]` (R10). -/
abbrev frameBits : Nat := 8 * frameLen

/-- A frame offset at which a whole float field fits: k + FLOAT_LEN <= FRAME_LEN (40_frame_codec.md R92). -/
abbrev FieldOffset := Fin (frameLen - floatLen + 1)

/-- Where the echoed command code stands in the inbound frame (R6). -/
abbrev echoAt : Fin frameLen := ⟨echoOffset, by decide⟩

/-- Where the float of a single-field reply stands: at the start of the payload region (R75). -/
abbrev floatAt : FieldOffset := ⟨payloadOffset, by decide⟩

/-- Where the flag of a single-field reply stands (R75). -/
abbrev flagFieldAt : Fin frameLen := ⟨payloadOffset, by decide⟩

/-- PAYLOAD_OFFSET + MS_OFF_V: the voltage of a combined reading (R7). -/
abbrev voltageAt : FieldOffset := ⟨payloadOffset + msOffV, by decide⟩

/-- PAYLOAD_OFFSET + MS_OFF_I: the current of a combined reading (R7). -/
abbrev currentAt : FieldOffset := ⟨payloadOffset + msOffI, by decide⟩

/-- PAYLOAD_OFFSET + MS_OFF_P: the power of a combined reading (R7). -/
abbrev powerAt : FieldOffset := ⟨payloadOffset + msOffP, by decide⟩

/-- PAYLOAD_OFFSET + MS_OFF_RELAY: the relay flag of a combined reading (R7). -/
abbrev relayAt : Fin frameLen := ⟨payloadOffset + msOffRelay, by decide⟩

/-- A frame: exactly 20 bytes, offsets 0 to 19 (00_scope.md Notation, R10; a frame of any other length
cannot be expressed, 93_implementation_defined.md U19). -/
abbrev Frame := Vector Byte frameLen

end Sys2Proof.Machine
end

