-- ==== Sys2Proof/Config.lean ====
section
/-! DEFINITION. What the spec leaves open and the model leaves free. -/

namespace Sys2Proof.Config

/-- The content of hidden RXBUF where the spec calls it unspecified (10_state.md R29, R33; U8): a free
value per draw, without a body, so that nothing can be proved of its bytes. Log entry 5. DESIGN CHOICE
(that the value is drawn at these events; the value itself stays free). Safe. -/
opaque openRx : Nat → Machine.Frame

end Sys2Proof.Config
end

