-- ==== Sys2Proof/Syntax.lean ====
section
/-! DEFINITION. The command set: one constructor per row of spec/opcode_table.json, and the reasons a
byte is no command. -/

namespace Sys2Proof

/-- The seven commands (30_encoding.md R71). No command has an operand (R70, R80). -/
inductive Instr where
  /-- read_voltage, 0x01 (R110). -/
  | readVoltage
  /-- read_current, 0x02 (R111). -/
  | readCurrent
  /-- read_power, 0x03 (R112). -/
  | readPower
  /-- read_relay, 0x04 (R113). -/
  | readRelay
  /-- read_all, 0x05 (R114). -/
  | readAll
  /-- set_relay_on, 0x06 (R120). -/
  | setRelayOn
  /-- set_relay_off, 0x07 (R121). -/
  | setRelayOff
  deriving DecidableEq, Repr

/-- Why bytes are not a command. -/
inductive DecodeError where
  /-- No byte is present. -/
  | noByte
  /-- The code is one of the 249 reserved values (30_encoding.md R72). -/
  | reservedCode (c : Machine.Code)
  deriving DecidableEq, Repr

end Sys2Proof
end

