-- ==== Sys2Proof/WellFormed.lean ====
section
/-! DEFINITION. Well-formedness: which code values are commands, and which instructions are well formed
(all: a command has no field that could be ill formed). -/

namespace Sys2Proof

/-- A legal code: "exactly the values with bits 7:3 = 00000 and bits 2:0 != 000" (30_encoding.md R71). -/
def legalCode (c : Machine.Code) : Bool :=
  c.extractLsb' 3 (Machine.codeWidth - 3) == 0 && c.extractLsb' 0 3 != 0

/-- A command has no register field, no immediate, no function field (30_encoding.md R70): nothing to check. -/
def Instr.wellFormed : Instr → Bool
  | .readVoltage => true
  | .readCurrent => true
  | .readPower => true
  | .readRelay => true
  | .readAll => true
  | .setRelayOn => true
  | .setRelayOff => true

/-- A legal program presents legal codes only (60_exceptions.md R149). -/
def legalProgram (cs : List Machine.Code) : Bool :=
  cs.all legalCode

end Sys2Proof
end

