-- ==== Sys2Proof/Decode.lean ====
section
/-! DEFINITION. The decoder (total on any bytes, rejecting by name), the encoder, the mnemonics, the
pseudo-operation and the diagnostic label (30_encoding.md R70 to R72, R80 to R82). -/

namespace Sys2Proof

/-- The command a code stands for: all eight bits take part in the match (R71); every other value is
reserved (R72). -/
def decodeCode (c : Machine.Code) : Except DecodeError Instr :=
  match c.toNat with
  | 0x01 => .ok .readVoltage
  | 0x02 => .ok .readCurrent
  | 0x03 => .ok .readPower
  | 0x04 => .ok .readRelay
  | 0x05 => .ok .readAll
  | 0x06 => .ok .setRelayOn
  | 0x07 => .ok .setRelayOff
  | _ => .error (.reservedCode c)

/-- Decode one command from a sequence of bytes, giving the rest: every command is one byte (R70). -/
def decode : List Byte → Except DecodeError (Instr × List Byte)
  | [] => .error .noByte
  | c :: rest =>
    match decodeCode c with
    | .ok i => .ok (i, rest)
    | .error e => .error e

/-- Decode a whole sequence of commands, one byte each (R70, R81); the first byte that is no command
rejects it. -/
def decodeAll : List Byte → Except DecodeError (List Instr)
  | [] => .ok []
  | c :: rest =>
    match decodeCode c with
    | .error e => .error e
    | .ok i =>
      match decodeAll rest with
      | .error e => .error e
      | .ok is => .ok (i :: is)

/-- The code of a command (R71). -/
def encodeCode : Instr → Machine.Code
  | .readVoltage => 0x01
  | .readCurrent => 0x02
  | .readPower => 0x03
  | .readRelay => 0x04
  | .readAll => 0x05
  | .setRelayOn => 0x06
  | .setRelayOff => 0x07

/-- The bytes of a command: one (R70). -/
def encode (i : Instr) : List Byte :=
  [encodeCode i]

/-- The bytes of a sequence of commands, in order (R81). -/
def encodeAll : List Instr → List Byte
  | [] => []
  | i :: is => encode i ++ encodeAll is

/-- The mnemonics of R81. -/
def mnemonic : Instr → String
  | .readVoltage => "read_voltage"
  | .readCurrent => "read_current"
  | .readPower => "read_power"
  | .readRelay => "read_relay"
  | .readAll => "read_all"
  | .setRelayOn => "set_relay_on"
  | .setRelayOff => "set_relay_off"

/-- The sentinel of `label` (R82). That its text is the rule's own token UNKNOWN is a DESIGN CHOICE, log entry 9: the
spec says that the spelling in the source's output is not given (D21). -/
def unknownLabel : String := "UNKNOWN"

/-- `label(b)`: the name used when a code is shown for diagnostics, pure and total, used by no rule (R82). -/
def label (b : Machine.Code) : String :=
  match decodeCode b with
  | .ok i => mnemonic i
  | .error _ => unknownLabel

/-- The pseudo-operation `set_relay(on)`: code 0x06 if on else 0x07 (R80, R81, 42_set_relay_commands.md R122). -/
def setRelay (on : Bool) : Instr :=
  if on then .setRelayOn else .setRelayOff

/-- Read one line of a command sequence (R81): a mnemonic alone, or the pseudo-operation written out. -/
def parseCommand (line : String) : Option Instr :=
  if line = "set_relay(true)" then some (setRelay true)
  else if line = "set_relay(false)" then some (setRelay false)
  else if line = "read_voltage" then some .readVoltage
  else if line = "read_current" then some .readCurrent
  else if line = "read_power" then some .readPower
  else if line = "read_relay" then some .readRelay
  else if line = "read_all" then some .readAll
  else if line = "set_relay_on" then some .setRelayOn
  else if line = "set_relay_off" then some .setRelayOff
  else none

/-- Byte `k` of a number, byte 0 least significant. -/
def byteOfNat (w k : Nat) : Byte :=
  BitVec.ofNat 8 (w / 2 ^ (8 * k))

/-- The bytes an opcode-table word of `nbits` bits lays out, first byte lowest; every bit above `nbits`
is 0, and at least the one byte of a command is laid out. -/
def tableBytes (nbits w : Nat) : List Byte :=
  (List.range (max 1 (nbits / 8))).map (byteOfNat (w % 2 ^ nbits))

/-- The command the decoder reads from a table word (the host's numbering of bits). -/
def decodeTableWord (nbits w : Nat) : Option Instr :=
  match decode (tableBytes nbits w) with
  | .ok (i, _) => some i
  | .error _ => none

end Sys2Proof
end

