-- ==== Sys2Proof/Machine/State.lean ====
section
/-! DEFINITION. The machine's state (10_state.md R20), the events at its boundary (00_scope.md R9 to R12),
the reasons a step can stop, and the state after reset (R33, R160). -/

namespace Sys2Proof.Machine

/-- PHASE, one bit: IDLE = 0, EXCHANGE = 1 (R24). -/
inductive Phase where
  | idle
  | exchange
  deriving DecidableEq, Repr

/-- The two outcomes of an `Issue` event (R9). -/
inductive IssueOutcome where
  | accepted
  | rejected
  deriving DecidableEq, Repr

/-- The outcome a `Rsp` event carries (R11). -/
inductive RspOutcome where
  | ok
  | transferFault
  deriving DecidableEq, Repr

/-- What the transport answers an `XferReq` with (R10): 20 inbound bytes, or a fault that carries nothing
(R142). -/
inductive Answer where
  | done (rx : Frame)
  | fault
  deriving DecidableEq, Repr

/-- The six kinds of event (00_scope.md R12 and Glossary): four inputs, two emitted. -/
inductive Event where
  /-- The host presented code `c`, with its outcome (R9). -/
  | issue (c : Code) (o : IssueOutcome)
  /-- The block handed the frame `tx` to the transport: one exchange begins (R10). -/
  | xferReq (tx : Frame)
  /-- The transport returned the inbound frame `rx` (R10, R98). -/
  | xferDone (rx : Frame)
  /-- The transport reported that the exchange could not complete (R10, R99). -/
  | xferFault
  /-- The block reported outcome `o` to the host (R11). -/
  | rsp (o : RspOutcome)
  /-- `Reset` (R12, R160). -/
  | reset
  deriving DecidableEq, Repr

/-- The inputs presented to the block at one step: which of the three event sources offers its next event.
What is not enabled in the state waits (R165). Log entry 3. -/
structure Wires where
  /-- `rst` is asserted: `Reset` takes priority over any other event presented at the same time (R160). -/
  rst : Bool
  /-- `cmd_valid`: the host presents its next command, if it has one (R9). -/
  cmdValid : Bool
  /-- The transport presents its next answer, if it has one (R10). -/
  xferValid : Bool
  deriving DecidableEq, Repr

/-- The wires once the schedule is exhausted: no reset, host and transport present what they have.
DESIGN CHOICE, log entry 3; a schedule of any length precedes it, so no order of events is shut out. -/
def Wires.eager : Wires := { rst := false, cmdValid := true, xferValid := true }

/-- The two address spaces (20_memory.md R50). -/
inductive Space where
  | tx
  | rx
  deriving DecidableEq, Repr

/-- The bytes of one 20-byte space: a list of (offset, byte) pairs, offsets rising, no listed byte 0x00,
which is what an unlisted offset reads as (R33 gives TX zeros; for RX see log entry 1). -/
abbrev Memory := List Host.Cell

/-- Why the machine stops with a fault. -/
inductive Fault where
  /-- A bounded access reached `offset` in a space whose only offsets are 0 to 19 (20_memory.md R50, R57).
  Raised by `load`, `store` and `payload` (Machine/Ops.lean, Machine/Operands.lean); no rule of the spec
  computes such an offset, so no step raises it. Safe. -/
  | noSuchOffset (space : Space) (offset : Nat)
  deriving DecidableEq, Repr

/-- Why the machine refuses. -/
inductive Refusal where
  /-- An instruction without a meaning; no arm of this model uses it. Safe. -/
  | notModelled (mnemonic : String)
  /-- An inbound frame arrived in EXCHANGE while CMD held the reserved code `c`: "`n` and `decode` are
  undefined for reserved codes" (40_frame_codec.md R96). Raised by `orphanAnswer` (Machine/Ops.lean); no
  run from reset reaches such a state (R34). Safe. Log entry 6. -/
  | reservedInFlight (c : Code)
  deriving DecidableEq, Repr

/-- The Measurement Set V, I, P, RELAY as one value (10_state.md R21 to R23). -/
structure MeasurementSet where
  v : Word
  i : Word
  p : Word
  relay : Byte
  deriving DecidableEq, Repr

/-- The state: the eleven elements of 10_state.md R20, then the model's own fields (the environment's
inputs, the trace of events, the counter of free values). -/
structure State where
  /-- V, the voltage pattern (R21). -/
  v : Word
  /-- I, the current pattern (R21). -/
  i : Word
  /-- P, the power pattern (R21). -/
  p : Word
  /-- RELAY, the raw relay flag byte (R22). -/
  relay : Byte
  /-- ECHO, the echoed command code of the last completed exchange (R26). -/
  echo : Byte
  /-- CMD, the code of the command in flight or last accepted (R25). -/
  cmd : Code
  /-- PHASE (R24). -/
  phase : Phase
  /-- DONE (R27). -/
  doneFlag : Bool
  /-- FAULT (R27). -/
  faultFlag : Bool
  /-- TXBUF, the TX space (R28, R52). -/
  txbuf : Memory
  /-- RXBUF, the RX space, hidden (R29, R53). -/
  rxbuf : Memory
  /-- MODEL: the codes the host has still to present, in order (R9, R13, R172). Log entry 2. -/
  hostCmds : List Code
  /-- MODEL: the transport's answers still to come, in order (R10, R13). Log entry 2. -/
  answers : List Answer
  /-- MODEL: the wires of the steps to come. Log entry 3. -/
  schedule : List Wires
  /-- MODEL: every event so far, oldest first (R102). Log entry 4. -/
  trace : List Event
  /-- MODEL: how many free inbound buffers have been drawn. Log entry 5. -/
  draws : Nat
  deriving DecidableEq, Repr

/-- The state after `Reset` (R33, R160), with nothing presented by the environment yet.
RXBUF is unspecified there; the value here is a DESIGN CHOICE (log entry 1, unsafe). -/
def State.reset : State where
  v := clearPattern
  i := clearPattern
  p := clearPattern
  relay := clearByte
  echo := clearByte
  cmd := 0x00
  phase := .idle
  doneFlag := false
  faultFlag := false
  txbuf := []
  rxbuf := []
  hostCmds := []
  answers := []
  schedule := []
  trace := []
  draws := 0

/-- The Measurement Set a state holds. -/
def State.ms (s : State) : MeasurementSet :=
  { v := s.v, i := s.i, p := s.p, relay := s.relay }

end Sys2Proof.Machine
end

