-- ==== Sys2Proof/Machine/Memory.lean ====
section
/-! DEFINITION. The two 20-byte spaces as memory (20_memory.md R50 to R60; MemRead and MemWrite of
00_scope.md, Notation): one canonical form, byte access, bounded access, whole-frame moves. -/

namespace Sys2Proof.Machine

/-- What an offset of a space that no entry lists reads as: 0x00. For TX it is the reset content (R33);
for RX see log entry 1. -/
def unlistedByte : Byte := 0x00

/-- The canonical form from offset `lo` on: offsets strictly rising and inside the space, no listed byte
equal to the unlisted one. -/
def Memory.wfFrom (lo : Nat) : Memory → Bool
  | [] => true
  | (k, b) :: m => decide (lo ≤ k) && decide (k < frameLen) && (b != unlistedByte) && Memory.wfFrom (k + 1) m

/-- The canonical form: equal spaces are equal lists. -/
def Memory.wf (m : Memory) : Bool :=
  Memory.wfFrom 0 m

/-- The byte at offset `a`. -/
def Memory.read : Memory → Nat → Byte
  | [], _ => unlistedByte
  | (k, b) :: m, a => if a = k then b else Memory.read m a

/-- An entry, unless it says what an unlisted offset reads as. -/
def Memory.entry (a : Nat) (b : Byte) (m : Memory) : Memory :=
  if b = unlistedByte then m else (a, b) :: m

/-- Write one byte, keeping the canonical form. -/
def Memory.write : Memory → Nat → Byte → Memory
  | [], a, b => Memory.entry a b []
  | (k, x) :: m, a, b =>
    if a < k then Memory.entry a b ((k, x) :: m)
    else if a = k then Memory.entry a b m
    else (k, x) :: Memory.write m a b

/-- Write bytes at consecutive offsets from `k` on. -/
def Memory.writeBytes (m : Memory) (k : Nat) : List Byte → Memory
  | [] => m
  | b :: bs => Memory.writeBytes (Memory.write m k b) (k + 1) bs

/-- `MemRead(space, k, n)`: the n bytes from offset k on, for k+n <= 20; no side effect (00_scope.md Notation,
R57, R59). An offset of 20 or more does not exist (R50). -/
def load (sp : Space) (m : Memory) (k n : Nat) : Except Fault (List Byte) :=
  if k + n ≤ frameLen then .ok ((List.range n).map fun j => m.read (k + j))
  else .error (.noSuchOffset sp (max k frameLen))

/-- `MemWrite(space, k, n, bs)`: the n bytes of bs at offsets k on, for k+n <= 20 (00_scope.md Notation). -/
def store (sp : Space) (m : Memory) (k : Nat) (bs : List Byte) : Except Fault Memory :=
  if k + bs.length ≤ frameLen then .ok (m.writeBytes k bs)
  else .error (.noSuchOffset sp (max k frameLen))

/-- The space that holds exactly a frame: a frame moves as a unit (R58), so the earlier content does not
matter. -/
def Memory.ofFrame (f : Frame) : Memory :=
  Memory.writeBytes [] 0 f.toList

/-- The frame a space holds (R50). -/
def Memory.toFrame (m : Memory) : Frame :=
  Vector.ofFn fun k => m.read k.val

end Sys2Proof.Machine
end

