-- ==== Sys2Proof/Machine/Operands.lean ====
section
/-! DEFINITION. The codec's pure functions (40_frame_codec.md R90 to R96): the outbound frame, the payload
locator, the field extractors, the payload length of each command, the packing of a frame on the wires. -/

namespace Sys2Proof.Machine

/-- `encode_command(c)`: c at offset 0, the other 19 bytes zero; total on all 256 values (R90). -/
def encodeCommand (c : Code) : Frame :=
  (Vector.replicate frameLen 0x00).set cmdOffset c

/-- `le32(b0, b1, b2, b3) = b3 ++ b2 ++ b1 ++ b0`, b0 is bits 7:0 (00_scope.md Notation, R55). -/
def le32 (b0 b1 b2 b3 : Byte) : Word :=
  b3 ++ b2 ++ b1 ++ b0

/-- Byte `k` of a frame, k = 0 to 19. -/
def byteAt (f : Frame) (k : Fin frameLen) : Byte :=
  f[k.val]

/-- Offset `k + j` of byte `j` of a float field at frame offset `k`: never past the frame (R57). -/
def fieldOffset (k : FieldOffset) (j : Fin floatLen) : Fin frameLen :=
  ⟨k.val + j.val, by
    have hk := k.isLt
    have hj := j.isLt
    simp only [frameLen, floatLen] at hk hj ⊢
    omega⟩

/-- `f32_at(rx, k)`, k+3 <= 19: the four bytes from offset k on, little-endian, unaligned (R92, R55, R56). -/
def f32At (rx : Frame) (k : FieldOffset) : Word :=
  le32 (byteAt rx (fieldOffset k 0)) (byteAt rx (fieldOffset k 1))
    (byteAt rx (fieldOffset k 2)) (byteAt rx (fieldOffset k 3))

/-- `flag_at(rx, k)`: the byte itself (R93). -/
def flagAt (rx : Frame) (k : Fin frameLen) : Byte :=
  byteAt rx k

/-- `on(b) = (b != 0x00)`: zero is off, nonzero is on (R93, R77). -/
def on (b : Byte) : Bool :=
  b != 0x00

/-- `echo_of(rx) = rx[2]` (R94). -/
def echoOf (rx : Frame) : Byte :=
  byteAt rx echoAt

/-- `payload(rx, n) = MemRead(RX, 3, n)`, n = 0 to 17 (R91); a larger n is outside the domain and faults by
name (U18). DESIGN CHOICE of how it is refused, log entry 7. -/
def payload (rx : Frame) (n : Nat) : Except Fault (List Byte) :=
  load .rx (Memory.ofFrame rx) payloadOffset n

/-- The float field at the start of the payload region (R110 to R112). -/
def payloadFloat (rx : Frame) : Word :=
  f32At rx floatAt

/-- The flag field at the start of the payload region (R113, R120, R121). -/
def payloadFlag (rx : Frame) : Byte :=
  flagAt rx flagFieldAt

/-- `decode_ms(rx)`: the four fields of a combined reading, at payload offsets 0, 4, 8, 12 (R95, R78). -/
def decodeMs (rx : Frame) : MeasurementSet where
  v := f32At rx voltageAt
  i := f32At rx currentAt
  p := f32At rx powerAt
  relay := flagAt rx relayAt

/-- n(c), the expected payload length (R96, R75). -/
def payloadLen : Instr → Nat
  | .readVoltage => floatLen
  | .readCurrent => floatLen
  | .readPower => floatLen
  | .readRelay => flagLen
  | .readAll => allLen
  | .setRelayOn => flagLen
  | .setRelayOff => flagLen

/-- The padding of the outbound frame: offsets PAD_FIRST to PAD_LAST (R6, 20_memory.md R52). -/
def isPadding (k : Nat) : Bool :=
  decide (padFirst ≤ k) && decide (k ≤ padLast)

/-- The inbound offsets a command ignores: IGN_FIRST to IGN_LAST, and what lies past its payload (20_memory.md
R53). -/
def isIgnored (i : Instr) (k : Nat) : Bool :=
  (decide (ignFirst ≤ k) && decide (k ≤ ignLast)) || decide (payloadOffset + payloadLen i ≤ k)

/-- The number whose base-256 digits are the bytes, the first least significant. -/
def natOfBytes : List Byte → Nat
  | [] => 0
  | b :: bs => b.toNat + 256 * natOfBytes bs

/-- A frame on `xfer_tx` or `xfer_rx`: byte k at bits [8k+7:8k] (00_scope.md R10). -/
def packFrame (f : Frame) : BitVec frameBits :=
  BitVec.ofNat frameBits (natOfBytes f.toList)

/-- The frame on a vector of the wires (R10). -/
def unpackFrame (x : BitVec frameBits) : Frame :=
  Vector.ofFn fun k => x.extractLsb' (8 * k.val) 8

end Sys2Proof.Machine
end

