-- ==== Sys2Proof/Machine/Flags.lean ====
section
/-! DEFINITION. The status flags and what the host reads (10_state.md R22, R27, R32, R35; 00_scope.md R9).
Every one is a view of the state: a host read has no side effect (R32). -/

namespace Sys2Proof.Machine

/-- BUSY = (PHASE == EXCHANGE) (R27). -/
def busy (s : State) : Bool :=
  s.phase == .exchange

/-- `cmd_ready` = not BUSY (R9, R32). -/
def cmdReady (s : State) : Bool :=
  !busy s

/-- PHASE as its bit: IDLE = 0, EXCHANGE = 1 (R24). -/
def phaseBit : Phase → BitVec 1
  | .idle => 0
  | .exchange => 1

/-- STATUS[2:0] = FAULT ++ DONE ++ BUSY: bit 0 BUSY, bit 1 DONE, bit 2 FAULT (R27). -/
def status (s : State) : BitVec 3 :=
  BitVec.ofBool s.faultFlag ++ BitVec.ofBool s.doneFlag ++ BitVec.ofBool (busy s)

/-- relay_on = (RELAY != 0x00) (R22). -/
def relayOn (s : State) : Bool :=
  on s.relay

/-- `cmd_accept` during an event (R9). -/
def cmdAccept : Event → Bool
  | .issue _ .accepted => true
  | _ => false

/-- `cmd_reject` during an event (R9, R149). -/
def cmdReject : Event → Bool
  | .issue _ .rejected => true
  | _ => false

/-- `xfer_tx` during an event, where `xfer_req` qualifies it (R10). -/
def xferTx : Event → Option (BitVec frameBits)
  | .xferReq tx => some (packFrame tx)
  | _ => none

/-- `rsp_valid` and `rsp_fault` during an event (R11). -/
def rspWires : Event → Bool × Bool
  | .rsp .ok => (true, false)
  | .rsp .transferFault => (true, true)
  | _ => (false, false)

/-- What the host can read of a state: everything but the two frame buffers (R32). -/
structure HostView where
  v : Word
  i : Word
  p : Word
  relay : Byte
  echo : Byte
  cmd : Code
  status : BitVec 3
  cmdReady : Bool
  deriving DecidableEq, Repr

/-- The host's view of a state (R32). -/
def hostView (s : State) : HostView where
  v := s.v
  i := s.i
  p := s.p
  relay := s.relay
  echo := s.echo
  cmd := s.cmd
  status := status s
  cmdReady := cmdReady s

/-- The typed result of an operation (R35). -/
inductive TypedResult where
  | voltage (w : Word)
  | current (w : Word)
  | power (w : Word)
  | relayState (b : Byte)
  | fullSet (m : MeasurementSet)
  deriving DecidableEq, Repr

/-- The registers that carry the result of a command (R35). -/
def resultOf (i : Instr) (m : MeasurementSet) : TypedResult :=
  match i with
  | .readVoltage => .voltage m.v
  | .readCurrent => .current m.i
  | .readPower => .power m.p
  | .readRelay => .relayState m.relay
  | .readAll => .fullSet m
  | .setRelayOn => .relayState m.relay
  | .setRelayOff => .relayState m.relay

end Sys2Proof.Machine
end

