-- ==== Sys2Proof/Machine/Ops.lean ====
section
/-! DEFINITION. The events (40_frame_codec.md R97 to R99, 60_exceptions.md R143 and R149,
70_reset_and_hazards.md R160): each is one operation whose writes take effect together, and the shared shape
of a command over them. -/

namespace Sys2Proof.Machine

/-- A space whose content the spec leaves unspecified: the free frame of draw number `n`. Log entry 5. -/
def openBuffer (n : Nat) : Memory :=
  Memory.ofFrame (Config.openRx n)

/-- `Issue(c)`, accepted (R97): the Measurement Set, ECHO, DONE and FAULT cleared; CMD, TXBUF, PHASE written;
exactly one `XferReq`. RXBUF holds "the previous exchange's frame or any other value" until the next
`XferDone` (R29): free. -/
def acceptIssue (c : Code) (s : State) : State :=
  { s with
    v := clearPattern, i := clearPattern, p := clearPattern, relay := clearByte
    echo := clearByte
    doneFlag := false, faultFlag := false
    cmd := c
    txbuf := Memory.ofFrame (encodeCommand c)
    phase := .exchange
    rxbuf := openBuffer s.draws, draws := s.draws + 1
    trace := s.trace ++ [.issue c .accepted, .xferReq (encodeCommand c)] }

/-- `Issue(c)`, rejected: no state element written, no `XferReq`, no `Rsp` (R149, R72). -/
def rejectIssue (c : Code) (s : State) : State :=
  { s with trace := s.trace ++ [.issue c .rejected] }

/-- `XferDone(rx)` (R98), with the register writes `wr` of the command in flight: RXBUF and ECHO written,
`wr rx` applied to the Measurement Set, DONE set, PHASE back to IDLE, `Rsp(ok)`. Nothing in `rx` is checked
(R101). -/
def xferDone (wr : Frame → MeasurementSet → MeasurementSet) (rx : Frame) (s : State) : State :=
  { s with
    rxbuf := Memory.ofFrame rx
    echo := echoOf rx
    v := (wr rx s.ms).v, i := (wr rx s.ms).i, p := (wr rx s.ms).p, relay := (wr rx s.ms).relay
    doneFlag := true
    phase := .idle
    trace := s.trace ++ [.xferDone rx, .rsp .ok] }

/-- TAKING THE ONE EXCEPTION, `raise TransferFault` (R143), at `XferFault` (R99): FAULT set, PHASE back to
IDLE, `Rsp(TransferFault)`; nothing saved, no vector; RXBUF unspecified (free). There is no return
operation: the block is simply idle (R145). -/
def raiseTransferFault (s : State) : State :=
  { s with
    faultFlag := true
    phase := .idle
    rxbuf := openBuffer s.draws, draws := s.draws + 1
    trace := s.trace ++ [.xferFault, .rsp .transferFault] }

/-- `Reset` (R160): enabled in every state, every element cleared, RXBUF unspecified (free), nothing emitted.
What the environment still has to present is the environment's and stays (R161; log entry 8). -/
def resetEvent (s : State) : State :=
  { s with
    v := clearPattern, i := clearPattern, p := clearPattern, relay := clearByte
    echo := clearByte, cmd := 0x00
    doneFlag := false, faultFlag := false
    txbuf := Memory.ofFrame (Vector.replicate frameLen 0x00)
    phase := .idle
    rxbuf := openBuffer s.draws, draws := s.draws + 1
    trace := s.trace ++ [.reset] }

/-- The state with the transport's next answer taken: each answer is delivered once (R10). -/
def takeAnswer (s : State) : State :=
  { s with answers := s.answers.tail }

/-- The state with the host's next code taken: `cmd_code` is sampled once (20_memory.md R65). -/
def takeCommand (s : State) : State :=
  { s with hostCmds := s.hostCmds.tail }

/-- One event of the command with code `c` and register writes `wr`.
In IDLE: its `Issue`, accepted. In EXCHANGE with the command in flight (CMD = c): the transport's next
answer, `XferDone` or `XferFault`; without an answer the block stays as it is (R168). In EXCHANGE with
another command in flight: its `Issue` is not enabled and waits, neither dropped nor rejected (R165). -/
def runCommand (c : Code) (wr : Frame → MeasurementSet → MeasurementSet) (s : State) :
    Host.Outcome State Fault Refusal :=
  match s.phase with
  | .idle => .next (acceptIssue c s)
  | .exchange =>
    if s.cmd = c then
      match s.answers with
      | [] => .next s
      | .done rx :: _ => .next (xferDone wr rx (takeAnswer s))
      | .fault :: _ => .next (raiseTransferFault (takeAnswer s))
    else .next s

/-- The transport's answer while CMD is a reserved code in EXCHANGE, a state no run reaches (R34): a fault
is taken as ever (R99 does not read CMD); for an inbound frame R96 leaves decode undefined, and the machine
refuses by name. Log entry 6. -/
def orphanAnswer (s : State) : Host.Outcome State Fault Refusal :=
  match s.answers with
  | [] => .next s
  | .done _ :: _ => .refused (.reservedInFlight s.cmd)
  | .fault :: _ => .next (raiseTransferFault (takeAnswer s))

end Sys2Proof.Machine
end

