-- ==== Sys2Proof/Machine/Cycle.lean ====
section
/-! DEFINITION. One step around the meanings: which event is enabled (40_frame_codec.md R97 to R99,
70_reset_and_hazards.md R160, R165, R168), and how the presented command is taken from the host. -/

namespace Sys2Proof.Machine

/-- The wires presented at the coming step. -/
def wiresNow (s : State) : Wires :=
  match s.schedule with
  | [] => Wires.eager
  | w :: _ => w

/-- The state with the presented wires used up. -/
def nextCycle (s : State) : State :=
  { s with schedule := s.schedule.tail }

/-- The code the host presents next, with the state in which it has been taken. -/
def fetch (s : State) : Option (Code × State) :=
  match s.hostCmds with
  | [] => none
  | c :: _ => some (c, takeCommand s)

/-- `Issue` in IDLE: the presented code is taken and either runs as the command it encodes or is rejected
(R97, R149). With nothing to present, nothing happens (R154). -/
def issueStep (run : Instr → State → Host.Outcome State Fault Refusal) (s : State) :
    Host.Outcome State Fault Refusal :=
  match fetch s with
  | none => .next s
  | some (c, s') =>
    match decode [c] with
    | .ok (i, _) => run i s'
    | .error _ => .next (rejectIssue c s')

/-- The transport's answer in EXCHANGE goes to the command in CMD (R25, R98, R99). -/
def answerStep (run : Instr → State → Host.Outcome State Fault Refusal) (s : State) :
    Host.Outcome State Fault Refusal :=
  match decode [s.cmd] with
  | .ok (i, _) => run i s
  | .error _ => orphanAnswer s

/-- One step: `Reset` overrides everything (R147, R160); in IDLE only `Issue` is enabled, in EXCHANGE only
the transport's answer; what is presented and not enabled waits (R165), and nothing else happens (R154). -/
def stepWith (run : Instr → State → Host.Outcome State Fault Refusal) (s : State) :
    Host.Outcome State Fault Refusal :=
  if (wiresNow s).rst then .next (resetEvent (nextCycle s))
  else
    match s.phase with
    | .idle => if (wiresNow s).cmdValid then issueStep run (nextCycle s) else .next (nextCycle s)
    | .exchange => if (wiresNow s).xferValid then answerStep run (nextCycle s) else .next (nextCycle s)

/-- The state with the code `c` as the host's next command, presented at the very next step to an idle block:
PHASE, the head of the schedule and the head of the host's sequence are what this takes. -/
def presentCode (c : Code) (s : State) : State :=
  { s with
    phase := .idle
    schedule := Wires.eager :: s.schedule.tail
    hostCmds := c :: s.hostCmds.tail }

end Sys2Proof.Machine
end

