-- ==== Sys2Proof/Machine/ReadCommands.lean ====
section
/-! DEFINITION. The five read commands (41_read_commands.md R110 to R114). The common behaviour (issue, answer,
fault, hold) is `runCommand`; what is particular to a command is its code and its register writes. -/

namespace Sys2Proof.Machine

/-- decode(0x01, rx): V <- f32_at(rx, 3) (R96, R110). -/
def writeVoltage (rx : Frame) (m : MeasurementSet) : MeasurementSet :=
  { m with v := payloadFloat rx }

/-- read_voltage (R110). -/
def execReadVoltage (s : State) : Host.Outcome State Fault Refusal :=
  runCommand (encodeCode .readVoltage) writeVoltage s

/-- decode(0x02, rx): I <- f32_at(rx, 3), the same offsets as the voltage of read_voltage (R96, R111). -/
def writeCurrent (rx : Frame) (m : MeasurementSet) : MeasurementSet :=
  { m with i := payloadFloat rx }

/-- read_current (R111). -/
def execReadCurrent (s : State) : Host.Outcome State Fault Refusal :=
  runCommand (encodeCode .readCurrent) writeCurrent s

/-- decode(0x03, rx): P <- f32_at(rx, 3) (R96, R112). -/
def writePower (rx : Frame) (m : MeasurementSet) : MeasurementSet :=
  { m with p := payloadFloat rx }

/-- read_power (R112). -/
def execReadPower (s : State) : Host.Outcome State Fault Refusal :=
  runCommand (encodeCode .readPower) writePower s

/-- decode(0x04, rx): RELAY <- flag_at(rx, 3) (R96, R113). -/
def writeRelay (rx : Frame) (m : MeasurementSet) : MeasurementSet :=
  { m with relay := payloadFlag rx }

/-- read_relay (R113). -/
def execReadRelay (s : State) : Host.Outcome State Fault Refusal :=
  runCommand (encodeCode .readRelay) writeRelay s

/-- decode(0x05, rx): all four registers from one frame (R96, R95, R114). -/
def writeAll (rx : Frame) (_ : MeasurementSet) : MeasurementSet :=
  decodeMs rx

/-- read_all (R114). -/
def execReadAll (s : State) : Host.Outcome State Fault Refusal :=
  runCommand (encodeCode .readAll) writeAll s

end Sys2Proof.Machine
end

