-- ==== Sys2Proof/Machine/SetRelayCommands.lean ====
section
/-! DEFINITION. The two set-relay commands (42_set_relay_commands.md R120, R121). RELAY takes the state the
peripheral reports, never the requested one. -/

namespace Sys2Proof.Machine

/-- decode(0x06, rx): RELAY <- flag_at(rx, 3) (R96, R120). -/
def writeRelayOn (rx : Frame) (m : MeasurementSet) : MeasurementSet :=
  { m with relay := payloadFlag rx }

/-- set_relay_on (R120). -/
def execSetRelayOn (s : State) : Host.Outcome State Fault Refusal :=
  runCommand (encodeCode .setRelayOn) writeRelayOn s

/-- decode(0x07, rx): RELAY <- flag_at(rx, 3) (R96, R121). -/
def writeRelayOff (rx : Frame) (m : MeasurementSet) : MeasurementSet :=
  { m with relay := payloadFlag rx }

/-- set_relay_off (R121). -/
def execSetRelayOff (s : State) : Host.Outcome State Fault Refusal :=
  runCommand (encodeCode .setRelayOff) writeRelayOff s

end Sys2Proof.Machine
end

