-- ==== Sys2Proof/Machine/Dispatch.lean ====
section
/-! DEFINITION. Each command's meaning, one arm per constructor. -/

namespace Sys2Proof.Machine

def exec (i : Instr) (s : State) : Host.Outcome State Fault Refusal :=
  match i with
  | .readVoltage => Sys2Proof.Machine.execReadVoltage s
  | .readCurrent => Sys2Proof.Machine.execReadCurrent s
  | .readPower => Sys2Proof.Machine.execReadPower s
  | .readRelay => Sys2Proof.Machine.execReadRelay s
  | .readAll => Sys2Proof.Machine.execReadAll s
  | .setRelayOn => Sys2Proof.Machine.execSetRelayOn s
  | .setRelayOff => Sys2Proof.Machine.execSetRelayOff s

end Sys2Proof.Machine
end

