-- ==== Sys2Proof/Machine/Step.lean ====
section
/-! DEFINITION. The step of the machine, and the placing of a command where the step takes its next one. -/

namespace Sys2Proof.Machine

/-- One step. -/
def step (s : State) : Host.Outcome State Fault Refusal :=
  stepWith exec s

/-- `s` with the command whose table bits are `w` presented at the very next step. The program of this
hardware is the host's command sequence (00_scope.md R13); log entry 2 says how it comes to run. -/
def State.withFetchWord (s : State) (nbits w : Nat) : State :=
  presentCode ((tableBytes nbits w).headD 0x00) s

end Sys2Proof.Machine
end

