-- ==== Sys2Proof/Machine/FloatFields.lean ====
section
/-! DEFINITION. Reading a 32-bit pattern as IEEE 754 binary32 (43_float_fields.md R132, R133, which the spec
marks as general knowledge). No meaning of a command uses this file: the block never looks inside a
pattern (R130, R131). Log entry 10. -/

namespace Sys2Proof.Machine

/-- `sign(w) = w[31]` (R132). -/
def floatSign (w : Word) : BitVec 1 :=
  w.extractLsb' 31 1

/-- `exponent(w) = w[30:23]`, biased (R132). -/
def floatExponent (w : Word) : BitVec 8 :=
  w.extractLsb' 23 8

/-- `fraction(w) = w[22:0]` (R132). -/
def floatFraction (w : Word) : BitVec 23 :=
  w.extractLsb' 0 23

/-- `w = S ++ E ++ F` (R132). -/
def floatPattern (s : BitVec 1) (e : BitVec 8) (f : BitVec 23) : Word :=
  s ++ e ++ f

/-- What a pattern denotes (R133). -/
inductive FloatValue where
  | nan (quiet : Bool)
  | infinity (negative : Bool)
  | zero (negative : Bool)
  /-- The number (-1)^negative x mantissa x 2^exponent. -/
  | finite (negative : Bool) (mantissa : Nat) (exponent : Int)
  deriving DecidableEq, Repr

/-- The value a binary32 pattern denotes (R133): a subnormal is F x 2^-149, a normal number
(2^23 + F) x 2^(E-150), which is (1 + F x 2^-23) x 2^(E-127). -/
def floatValue (w : Word) : FloatValue :=
  let neg := floatSign w == 1
  let e := (floatExponent w).toNat
  let f := (floatFraction w).toNat
  if e = 255 then (if f = 0 then .infinity neg else .nan ((floatFraction w).getLsbD 22))
  else if e = 0 then (if f = 0 then .zero neg else .finite neg f (-149))
  else .finite neg (2 ^ 23 + f) ((e : Int) - 150)

/-- The rational number a finite value is. -/
def FloatValue.toRat : FloatValue → Option ℚ
  | .nan _ => none
  | .infinity _ => none
  | .zero _ => some 0
  | .finite neg m e => some ((if neg then -1 else 1) * (m : ℚ) * (2 : ℚ) ^ e)

end Sys2Proof.Machine
end

