-- ==== Sys2Proof/Safety.lean ====
section
/-! DEFINITION. The terms claims are made in: the dispatcher's table and the atomic view of a command
(40_frame_codec.md R96, R100), counts over the trace (R102), the invariants of 10_state.md R34, the end of a
run and the liveness premise (70_reset_and_hazards.md R168, R172). -/

namespace Sys2Proof.Machine

/-- The cleared Measurement Set (R23, R134). -/
def clearedMs : MeasurementSet :=
  { v := clearPattern, i := clearPattern, p := clearPattern, relay := clearByte }

/-- The result registers after a completed command: zero overwritten by decode(c, rx) (R96, R100). Written
from the table, independently of the meanings. -/
def decodeTable (i : Instr) (rx : Frame) : MeasurementSet :=
  match i with
  | .readVoltage => { clearedMs with v := f32At rx floatAt }
  | .readCurrent => { clearedMs with i := f32At rx floatAt }
  | .readPower => { clearedMs with p := f32At rx floatAt }
  | .readRelay => { clearedMs with relay := byteAt rx flagFieldAt }
  | .readAll => { v := f32At rx voltageAt, i := f32At rx currentAt, p := f32At rx powerAt, relay := byteAt rx relayAt }
  | .setRelayOn => { clearedMs with relay := byteAt rx flagFieldAt }
  | .setRelayOff => { clearedMs with relay := byteAt rx flagFieldAt }

/-- The host-visible state after the atomic step Op(c, a), a function of (c, a) alone (R100). -/
def atomicView (i : Instr) : Answer → HostView
  | .done rx =>
    { v := (decodeTable i rx).v, i := (decodeTable i rx).i, p := (decodeTable i rx).p
      relay := (decodeTable i rx).relay, echo := byteAt rx echoAt, cmd := encodeCode i
      status := 0b010, cmdReady := true }
  | .fault =>
    { v := clearPattern, i := clearPattern, p := clearPattern, relay := clearByte, echo := clearByte
      cmd := encodeCode i, status := 0b100, cmdReady := true }

/-- The events an answer adds to the trace, input first (R98, R99). -/
def answerEvents : Answer → List Event
  | .done rx => [.xferDone rx, .rsp .ok]
  | .fault => [.xferFault, .rsp .transferFault]

/-- An accepted `Issue` (R9). -/
def Event.isAccepted : Event → Bool
  | .issue _ .accepted => true
  | _ => false

/-- An `XferReq`: one exchange begins (R10). -/
def Event.isXferReq : Event → Bool
  | .xferReq _ => true
  | _ => false

/-- The transport's answer to an exchange (R10). -/
def Event.isAnswer : Event → Bool
  | .xferDone _ => true
  | .xferFault => true
  | _ => false

/-- A `Rsp` (R11). -/
def Event.isRsp : Event → Bool
  | .rsp _ => true
  | _ => false

/-- The frame an `XferReq` carries. -/
def Event.frame? : Event → Option Frame
  | .xferReq tx => some tx
  | _ => none

/-- The events the block emitted: `XferReq` and `Rsp` (R12). -/
def emitted (t : List Event) : List Event :=
  t.filter fun e => e.isXferReq || e.isRsp

/-- Number of accepted `Issue` events. -/
def acceptedIssues (t : List Event) : Nat :=
  t.countP Event.isAccepted

/-- Number of `XferReq` events. -/
def exchanges (t : List Event) : Nat :=
  t.countP Event.isXferReq

/-- Number of `XferDone` and `XferFault` events. -/
def answered (t : List Event) : Nat :=
  t.countP Event.isAnswer

/-- Number of `Rsp` events. -/
def responses (t : List Event) : Nat :=
  t.countP Event.isRsp

/-- What a trace says of PHASE and of the commands a `Reset` abandoned (R24, R161). -/
def track (x : Phase × Nat) : Event → Phase × Nat
  | .issue _ _ => x
  | .xferReq _ => (.exchange, x.2)
  | .xferDone _ => (.idle, x.2)
  | .xferFault => (.idle, x.2)
  | .rsp _ => x
  | .reset => (.idle, if x.1 = .exchange then x.2 + 1 else x.2)

/-- PHASE as the trace determines it: EXCHANGE iff an `XferReq` has been emitted that nothing has answered
yet and no `Reset` has abandoned (R24, R161). -/
def tracePhase (t : List Event) : Phase :=
  (t.foldl track (.idle, 0)).1

/-- Number of exchanges a `Reset` in EXCHANGE abandoned (R161). -/
def abandoned (t : List Event) : Nat :=
  (t.foldl track (.idle, 0)).2

/-- PHASE as a count: 1 while an exchange is in flight. -/
def inFlight : Phase → Nat
  | .idle => 0
  | .exchange => 1

/-- The invariants of 10_state.md R34, with the canonical form of RXBUF. -/
structure Invariants (s : State) : Prop where
  /-- R34 (i). -/
  flagsExclusive : ¬(s.doneFlag = true ∧ s.faultFlag = true)
  /-- R34 (ii). -/
  busyCleared : s.phase = .exchange →
    s.doneFlag = false ∧ s.faultFlag = false ∧ s.ms = clearedMs ∧ s.echo = 0 ∧ legalCode s.cmd = true
  /-- R34 (iii). -/
  txIsFrame : s.txbuf = Memory.ofFrame (encodeCommand s.cmd)
  /-- R34 (iv). -/
  faultCleared : s.faultFlag = true → s.ms = clearedMs ∧ s.echo = 0
  /-- R34 (v). -/
  doneDecoded : s.doneFlag = true →
    ∃ i, decodeCode s.cmd = .ok i ∧ s.ms = decodeTable i s.rxbuf.toFrame ∧ s.echo = s.rxbuf.read echoOffset
  /-- R34 (vi). -/
  cmdLegal : s.cmd = 0x00 ∨ legalCode s.cmd = true
  /-- The RX space keeps its canonical form. -/
  rxCanonical : s.rxbuf.wf = true
  /-- R34 (vii), first half: one `XferReq` per accepted `Issue` (R102). -/
  oneExchangeEach : exchanges s.trace = acceptedIssues s.trace
  /-- R34 (vii), second half, with the exchanges that a `Reset` abandoned (R161) counted apart. -/
  exchangesBalance : exchanges s.trace = answered s.trace + inFlight s.phase + abandoned s.trace
  /-- R24: PHASE = EXCHANGE iff an `XferReq` is unanswered. -/
  phaseTraced : tracePhase s.trace = s.phase
  /-- One `Rsp` per answer (R11, R144). -/
  oneResponseEach : responses s.trace = answered s.trace

/-- `n` steps, stopping at the first fault or refusal. -/
def stepN : Nat → State → Host.Outcome State Fault Refusal
  | 0, s => .next s
  | n + 1, s =>
    match step s with
    | .next t => stepN n t
    | .fault f => .fault f
    | .refused r => .refused r

/-- The state after `Reset` with an environment of any kind: what the host and the transport will present, and
when (R13, R60). -/
def resetWith (cmds : List Code) (answers : List Answer) (schedule : List Wires) : State :=
  { State.reset with hostCmds := cmds, answers := answers, schedule := schedule }

/-- The frames of the `XferReq` events, in order (R62). -/
def requestedFrames (t : List Event) : List Frame :=
  t.filterMap Event.frame?

/-- A step that does not stop. -/
def Continues (s : State) : Prop :=
  ∃ t, step s = .next t

/-- The end of a run (R172): every `Issue` of the host's sequence has occurred, each accepted one has its
`Rsp`, and PHASE = IDLE. -/
def RunEnded (s : State) : Prop :=
  s.hostCmds = [] ∧ responses s.trace = acceptedIssues s.trace ∧ s.phase = .idle

/-- How many answers the commands still to come, and the one in flight, need. -/
def answersNeeded (s : State) : Nat :=
  s.hostCmds.countP legalCode + inFlight s.phase

/-- The premise XFER_LIVENESS (R8, R168) for the commands of this run: the transport has an answer for each. -/
def XferLiveness (s : State) : Prop :=
  answersNeeded s ≤ s.answers.length

/-- No `Reset` is presented in the steps to come. -/
def NoReset (s : State) : Prop :=
  ∀ w ∈ s.schedule, w.rst = false

end Sys2Proof.Machine
end

