-- ==== Sys2Proof/Certificates/Slice0/Obligations.lean ====
section
/-! DEFINITION. The statements for the provers, and the rules' own words as states (`Stated`), written here from
the rules and not from the meanings. -/

namespace Sys2Proof.Stated

open Sys2Proof Sys2Proof.Machine

/-- `t` is `u`, but for the hidden RXBUF, which the spec leaves open there (R29), and the model's counter of
free values. -/
def SameButOpenRx (t u : State) : Prop :=
  { t with rxbuf := u.rxbuf, draws := u.draws } = u

/-- What an accepted `Issue(c)` writes and emits, everything else as in `s` (R97). -/
def issued (c : Code) (s : State) : State :=
  { s with
    v := 0, i := 0, p := 0, relay := 0, echo := 0, doneFlag := false, faultFlag := false
    cmd := c, txbuf := Memory.ofFrame (encodeCommand c), phase := .exchange
    trace := s.trace ++ [.issue c .accepted, .xferReq (encodeCommand c)] }

/-- What `XferDone(rx)` writes and emits but for the registers of `decode` (R98); the answer is used up. -/
def completed (rx : Frame) (s : State) : State :=
  { s with
    rxbuf := Memory.ofFrame rx, echo := byteAt rx 2, doneFlag := true, phase := .idle
    answers := s.answers.tail, trace := s.trace ++ [.xferDone rx, .rsp .ok] }

/-- What `XferFault` writes and emits (R99, R143); the answer is used up. -/
def faulted (s : State) : State :=
  { s with
    faultFlag := true, phase := .idle
    answers := s.answers.tail, trace := s.trace ++ [.xferFault, .rsp .transferFault] }

/-- Four frame bytes from offset `k` on, the lowest offset least significant (R55). -/
def le32At (rx : Frame) (k : Nat) (h : k + 3 < frameLen) : Word :=
  byteAt rx ⟨k + 3, h⟩ ++ byteAt rx ⟨k + 2, by omega⟩ ++ byteAt rx ⟨k + 1, by omega⟩ ++ byteAt rx ⟨k, by omega⟩

/-- The template of the command rules (R110 to R114, R120, R121): the code and the outbound frame; the accepted
`Issue`; `XferDone` with the command's own register write `result`; TransferFault on `XferFault` only; and
nothing at all without an answer or while another command is in flight. -/
def CommandRuns (i : Instr) (code : Code) (result : Frame → State → State) : Prop :=
  encodeCode i = code ∧
  encodeCommand code = #v[code, 0, 0, 0, 0, 0, 0, 0, 0, 0, 0, 0, 0, 0, 0, 0, 0, 0, 0, 0] ∧
  (∀ s : State, s.phase = .idle → ∃ t, exec i s = .next t ∧ SameButOpenRx t (issued code s)) ∧
  (∀ (s : State) (rx : Frame) (rest : List Answer), s.phase = .exchange → s.cmd = code →
    s.answers = .done rx :: rest → exec i s = .next (result rx (completed rx s))) ∧
  (∀ (s : State) (rest : List Answer), s.phase = .exchange → s.cmd = code → s.answers = .fault :: rest →
    ∃ t, exec i s = .next t ∧ SameButOpenRx t (faulted s)) ∧
  (∀ s : State, s.phase = .exchange → s.answers = [] ∨ s.cmd ≠ code → exec i s = .next s)

/-- The outcome with its next state changed by `f`. -/
def mapNext (f : State → State) : Host.Outcome State Fault Refusal → Host.Outcome State Fault Refusal
  | .next t => .next (f t)
  | .fault r => .fault r
  | .refused r => .refused r

/-- Two frames agree on offset 2 and on the first `n` bytes of the payload region (R54). -/
def AgreeOnRead (n : Nat) (rx rx' : Frame) : Prop :=
  ∀ k : Fin frameLen, (k.val = 2 ∨ (3 ≤ k.val ∧ k.val < 3 + n)) → byteAt rx k = byteAt rx' k

/-- The typed result of a completed command (R35), read from the inbound frame by the rows of R96. -/
def typedResult (rx : Frame) : Instr → TypedResult
  | .readVoltage => .voltage (le32At rx 3 (by decide))
  | .readCurrent => .current (le32At rx 3 (by decide))
  | .readPower => .power (le32At rx 3 (by decide))
  | .readRelay => .relayState (byteAt rx 3)
  | .readAll => .fullSet
      { v := le32At rx 3 (by decide), i := le32At rx 7 (by decide), p := le32At rx 11 (by decide)
        relay := byteAt rx 15 }
  | .setRelayOn => .relayState (byteAt rx 3)
  | .setRelayOff => .relayState (byteAt rx 3)

/-- The bytes of the pattern `w` stand at offsets 3 to 6, least significant first (95_test_vectors.md EX2). -/
def CarriesAtPayload (rx : Frame) (w : Word) : Prop :=
  byteAt rx 3 = w.extractLsb' 0 8 ∧ byteAt rx 4 = w.extractLsb' 8 8 ∧
  byteAt rx 5 = w.extractLsb' 16 8 ∧ byteAt rx 6 = w.extractLsb' 24 8

end Sys2Proof.Stated

open Sys2Proof Sys2Proof.Machine Sys2Proof.Stated

/-! ## Reset -/

/-- R33: after Reset every element holds zero and PHASE is IDLE (RXBUF is unspecified and not claimed). -/
def Obligations.ResetStateIsAllZero : Prop :=
  State.reset.v = 0 ∧ State.reset.i = 0 ∧ State.reset.p = 0 ∧ State.reset.relay = 0 ∧ State.reset.echo = 0 ∧
  State.reset.cmd = 0 ∧ State.reset.phase = .idle ∧ State.reset.doneFlag = false ∧ State.reset.faultFlag = false ∧
  (∀ a, State.reset.txbuf.read a = 0) ∧ State.reset.txbuf = Memory.ofFrame (encodeCommand 0x00) ∧
  busy State.reset = false ∧ cmdReady State.reset = true

/-- R160: `Reset` is enabled in every state, overrides whatever else is presented, clears every element, and
emits neither `XferReq` nor `Rsp`; to the host the block is as if it had never run a command.
MODEL'S CHOICE, not R160's: the clauses that `hostCmds` and `answers` stay and that one entry of `schedule` is used
up rest on log entries 8 (DEDUCED) and 3 (DESIGN CHOICE). -/
def Obligations.ResetOverridesAndClears : Prop :=
  ∀ s : State, (wiresNow s).rst = true →
    ∃ t, step s = .next t ∧ SameButOpenRx t
      { s with
        v := 0, i := 0, p := 0, relay := 0, echo := 0, cmd := 0, doneFlag := false, faultFlag := false
        txbuf := [], phase := .idle, schedule := s.schedule.tail, trace := s.trace ++ [.reset] } ∧
      hostView t = hostView State.reset

/-- R161: a `Reset` in EXCHANGE abandons the command in flight: no `Rsp` for it, and the outstanding `XferReq` is
forgotten (counted as abandoned).
MODEL'S CHOICE, not R161's: the clause that the transport's pending answers stay is log entry 8 (DEDUCED). -/
def Obligations.ResetAbandonsTheExchange : Prop :=
  ∀ s t : State, Invariants s → s.phase = .exchange → (wiresNow s).rst = true → step s = .next t →
    t.phase = .idle ∧ emitted t.trace = emitted s.trace ∧ abandoned t.trace = abandoned s.trace + 1 ∧
    t.answers = s.answers

/-! ## The seven commands -/

/-- R110, read_voltage. -/
def Obligations.ReadVoltageRuns : Prop :=
  CommandRuns .readVoltage 0x01 fun rx t => { t with v := le32At rx 3 (by decide) }

/-- R111, read_current. -/
def Obligations.ReadCurrentRuns : Prop :=
  CommandRuns .readCurrent 0x02 fun rx t => { t with i := le32At rx 3 (by decide) }

/-- R112, read_power. -/
def Obligations.ReadPowerRuns : Prop :=
  CommandRuns .readPower 0x03 fun rx t => { t with p := le32At rx 3 (by decide) }

/-- R113, read_relay. -/
def Obligations.ReadRelayRuns : Prop :=
  CommandRuns .readRelay 0x04 fun rx t => { t with relay := byteAt rx 3 }

/-- R114, read_all. -/
def Obligations.ReadAllRuns : Prop :=
  CommandRuns .readAll 0x05 fun rx t =>
    { t with
      v := le32At rx 3 (by decide), i := le32At rx 7 (by decide), p := le32At rx 11 (by decide)
      relay := byteAt rx 15 }

/-- R120, set_relay_on. -/
def Obligations.SetRelayOnRuns : Prop :=
  CommandRuns .setRelayOn 0x06 fun rx t => { t with relay := byteAt rx 3 }

/-- R121, set_relay_off. -/
def Obligations.SetRelayOffRuns : Prop :=
  CommandRuns .setRelayOff 0x07 fun rx t => { t with relay := byteAt rx 3 }

/-- R122: `set_relay(true)` is `Issue(0x06)`, `set_relay(false)` is `Issue(0x07)`; one exchange is requested, with
that code, and the boolean is stored nowhere but in CMD. -/
def Obligations.SetRelayPseudoOperation : Prop :=
  ∀ (on : Bool) (s : State), s.phase = .idle →
    ∃ t, exec (setRelay on) s = .next t ∧ SameButOpenRx t (issued (if on then 0x06 else 0x07) s)

/-- EX2 and R115: a pattern placed at offsets 3 to 6 is decoded bit for bit by the four float-decoding commands. -/
def Obligations.FourFloatReadsReturnThePattern : Prop :=
  ∀ (w : Word) (rx : Frame) (rest : List Answer) (s : State), CarriesAtPayload rx w → s.phase = .exchange →
    s.answers = .done rx :: rest →
    (s.cmd = 0x01 → ∃ t, exec .readVoltage s = .next t ∧ t.v = w) ∧
    (s.cmd = 0x02 → ∃ t, exec .readCurrent s = .next t ∧ t.i = w) ∧
    (s.cmd = 0x03 → ∃ t, exec .readPower s = .next t ∧ t.p = w) ∧
    (s.cmd = 0x05 → ∃ t, exec .readAll s = .next t ∧ t.v = w)

/-! ## The step around the meanings -/

/-- A step runs the decoded command: the code the host presents in IDLE, and the code in CMD when the transport
answers in EXCHANGE. The step adds that the presented wires and the sampled code are used up. -/
def Obligations.StepRunsTheDecodedCommand : Prop :=
  (∀ (s : State) (c : Code) (rest : List Code) (i : Instr), (wiresNow s).rst = false →
    (wiresNow s).cmdValid = true → s.phase = .idle → s.hostCmds = c :: rest → i.wellFormed = true →
    decode [c] = .ok (i, []) → step s = exec i { s with schedule := s.schedule.tail, hostCmds := rest }) ∧
  (∀ (s : State) (i : Instr), (wiresNow s).rst = false → (wiresNow s).xferValid = true →
    s.phase = .exchange → i.wellFormed = true → decode [s.cmd] = .ok (i, []) →
    step s = exec i { s with schedule := s.schedule.tail })

/-- R149: a reserved code presented in IDLE is rejected: no element written, no `XferReq`, no `Rsp`; the code is
used up and the block is ready for the next. -/
def Obligations.ReservedCodesAreRejected : Prop :=
  ∀ (s : State) (c : Code) (rest : List Code), (wiresNow s).rst = false → (wiresNow s).cmdValid = true →
    s.phase = .idle → s.hostCmds = c :: rest →
    (∀ k : Code, k ∈ [(0x01 : Code), 0x02, 0x03, 0x04, 0x05, 0x06, 0x07] → c ≠ k) →
    step s = .next { s with
      schedule := s.schedule.tail, hostCmds := rest, trace := s.trace ++ [.issue c .rejected] }

/-- R165: while PHASE = EXCHANGE `cmd_ready` is 0 and what the host presents has no effect whatever: the step does
the same with any sequence of host commands, and leaves that sequence as it is, neither dropped nor rejected;
the hold is lifted by the transport's answer or by `Reset`, and by nothing else. -/
def Obligations.IssueWaitsWhileBusy : Prop :=
  ∀ (s : State) (cs : List Code), s.phase = .exchange →
    cmdReady s = false ∧
    step { s with hostCmds := cs } = mapNext (fun t => { t with hostCmds := cs }) (step s) ∧
    ∀ t, step s = .next t → t.hostCmds = s.hostCmds ∧
      (cmdReady t = true ↔ ∃ e ∈ t.trace.drop s.trace.length, e = .reset ∨ e.isAnswer = true)

/-- R168: a transport that never answers leaves the block in EXCHANGE for ever, BUSY, nothing emitted and nothing
written; `Reset` is the way out. -/
def Obligations.NoAnswerHangsUntilReset : Prop :=
  ∀ s : State, s.phase = .exchange → s.answers = [] →
    (NoReset s → ∀ n, stepN n s = .next { s with schedule := s.schedule.drop n }) ∧
    busy s = true ∧ cmdReady s = false ∧
    ((wiresNow s).rst = true → ∃ t, step s = .next t ∧ t.phase = .idle)

/-- R143: taking the one exception, for whatever command is in flight: FAULT and PHASE are written, `Rsp` with
TransferFault emitted, nothing saved, everything else as it was. -/
def Obligations.TransferFaultEntry : Prop :=
  ∀ (s : State) (rest : List Answer), (wiresNow s).rst = false → (wiresNow s).xferValid = true →
    s.phase = .exchange → s.answers = .fault :: rest →
    ∃ t, step s = .next t ∧ SameButOpenRx t
      { s with
        faultFlag := true, phase := .idle, answers := rest, schedule := s.schedule.tail
        trace := s.trace ++ [.xferFault, .rsp .transferFault] }

/-- R148: whatever the inbound frame holds, the command in flight completes with FAULT = 0, DONE = 1 and
`Rsp(ok)`. -/
def Obligations.NoInboundFrameIsAFault : Prop :=
  ∀ (s : State) (rx : Frame) (rest : List Answer), Invariants s → (wiresNow s).rst = false →
    (wiresNow s).xferValid = true → s.phase = .exchange → s.answers = .done rx :: rest →
    ∃ t, step s = .next t ∧ t.faultFlag = false ∧ t.doneFlag = true ∧ t.phase = .idle ∧
      t.trace = s.trace ++ [.xferDone rx, .rsp .ok]

/-- R102: a step adds to the trace one of six groups of events; an `XferReq` comes exactly with an accepted
`Issue`, of the same code. -/
def Obligations.OneExchangePerAcceptedIssue : Prop :=
  ∀ s t : State, step s = .next t → ∃ new, t.trace = s.trace ++ new ∧
    (new = [] ∨ (∃ c, new = [.issue c .rejected]) ∨
     (∃ c, new = [.issue c .accepted, .xferReq (encodeCommand c)]) ∨
     (∃ rx, new = [.xferDone rx, .rsp .ok]) ∨ new = [.xferFault, .rsp .transferFault] ∨ new = [.reset]) ∧
    exchanges new = acceptedIssues new

/-- R24, R25 and R27: PHASE, CMD, DONE and FAULT are written by an accepted `Issue`, `XferDone`, `XferFault` and
`Reset`, each with the value the rules give, and by nothing else. -/
def Obligations.WritersOfTheControlState : Prop :=
  ∀ s t : State, step s = .next t → ∃ new, t.trace = s.trace ++ new ∧
    ((∃ c, new = [.issue c .accepted, .xferReq (encodeCommand c)] ∧ s.phase = .idle ∧ t.phase = .exchange ∧
        t.cmd = c ∧ t.doneFlag = false ∧ t.faultFlag = false) ∨
     (∃ rx, new = [.xferDone rx, .rsp .ok] ∧ s.phase = .exchange ∧ t.phase = .idle ∧ t.cmd = s.cmd ∧
        t.doneFlag = true ∧ t.faultFlag = s.faultFlag) ∨
     (new = [.xferFault, .rsp .transferFault] ∧ s.phase = .exchange ∧ t.phase = .idle ∧ t.cmd = s.cmd ∧
        t.doneFlag = s.doneFlag ∧ t.faultFlag = true) ∨
     (new = [.reset] ∧ t.phase = .idle ∧ t.cmd = 0 ∧ t.doneFlag = false ∧ t.faultFlag = false) ∨
     ((new = [] ∨ ∃ c, new = [.issue c .rejected]) ∧ t.phase = s.phase ∧ t.cmd = s.cmd ∧
        t.doneFlag = s.doneFlag ∧ t.faultFlag = s.faultFlag))

/-- R23, R26, R28 and R32: the Measurement Set, ECHO and TXBUF are written by an accepted `Issue`, by `XferDone`
(not TXBUF) and by `Reset`; `XferDone` alone writes RXBUF with a frame; a step without such an event leaves
them, byte for byte. -/
def Obligations.WritersOfTheDataState : Prop :=
  ∀ s t : State, step s = .next t → ∃ new, t.trace = s.trace ++ new ∧
    ((∃ c, new = [.issue c .accepted, .xferReq (encodeCommand c)] ∧ t.ms = clearedMs ∧ t.echo = 0 ∧
        ∀ k : Fin frameLen, t.txbuf.read k.val = byteAt (encodeCommand c) k) ∨
     (∃ rx, new = [.xferDone rx, .rsp .ok] ∧ t.echo = byteAt rx 2 ∧
        (∀ a, t.txbuf.read a = s.txbuf.read a) ∧ ∀ k : Fin frameLen, t.rxbuf.read k.val = byteAt rx k) ∨
     (new = [.xferFault, .rsp .transferFault] ∧ t.ms = s.ms ∧ t.echo = s.echo ∧
        ∀ a, t.txbuf.read a = s.txbuf.read a) ∨
     (new = [.reset] ∧ t.ms = clearedMs ∧ t.echo = 0 ∧ ∀ a, t.txbuf.read a = 0) ∨
     ((new = [] ∨ ∃ c, new = [.issue c .rejected]) ∧ t.ms = s.ms ∧ t.echo = s.echo ∧
        (∀ a, t.txbuf.read a = s.txbuf.read a) ∧ ∀ a, t.rxbuf.read a = s.rxbuf.read a))

/-! ## Frames -/

/-- The frame of an accepted `Issue`, for all seven commands: offset 0 of TX is the code, every other byte of TX
reads 0x00 (R52); the environment's fields stay. RXBUF is open (R29). -/
def Obligations.IssueStoresOnlyTheOutboundFrame : Prop :=
  ∀ (i : Instr) (s : State), s.phase = .idle →
    ∃ t, exec i s = .next t ∧ t.txbuf.read cmdOffset = encodeCode i ∧ (∀ a, a ≠ cmdOffset → t.txbuf.read a = 0) ∧
      t.txbuf.wf = true ∧ t.hostCmds = s.hostCmds ∧ t.answers = s.answers ∧ t.schedule = s.schedule

/-- The frame of a completion, for all seven commands: every byte of TX, CMD, FAULT, the host's sequence and the
schedule stay; RX holds the 20 inbound bytes and nothing outside them; each result register stays unless the
command's row of R96 writes it. -/
def Obligations.CompletionWritesOnlyItsRegisters : Prop :=
  ∀ (i : Instr) (s : State) (rx : Frame) (rest : List Answer), s.phase = .exchange → s.cmd = encodeCode i →
    s.answers = .done rx :: rest →
    ∃ t, exec i s = .next t ∧ (∀ a, t.txbuf.read a = s.txbuf.read a) ∧
      (∀ k : Fin frameLen, t.rxbuf.read k.val = byteAt rx k) ∧
      (∀ a, frameLen ≤ a → t.rxbuf.read a = 0) ∧ t.rxbuf.wf = true ∧
      t.cmd = s.cmd ∧ t.faultFlag = s.faultFlag ∧ t.hostCmds = s.hostCmds ∧ t.schedule = s.schedule ∧
      t.draws = s.draws ∧ t.answers = rest ∧
      (i ≠ .readVoltage → i ≠ .readAll → t.v = s.v) ∧ (i ≠ .readCurrent → i ≠ .readAll → t.i = s.i) ∧
      (i ≠ .readPower → i ≠ .readAll → t.p = s.p) ∧
      (i = .readVoltage ∨ i = .readCurrent ∨ i = .readPower → t.relay = s.relay)

/-- R54 (the spec derives it from R53 and R98): the ignored bytes. Two inbound frames that agree on offset 2 and on the command's payload bytes lead to
states that agree on every element but hidden RXBUF, and the same events are emitted (the model's trace also
records the frames). -/
def Obligations.IgnoredBytesNeverMatter : Prop :=
  ∀ (i : Instr) (s : State) (rx rx' : Frame) (rest : List Answer), s.phase = .exchange → s.cmd = encodeCode i →
    AgreeOnRead (payloadLen i) rx rx' →
    ∃ t t', exec i { s with answers := .done rx :: rest } = .next t ∧
      exec i { s with answers := .done rx' :: rest } = .next t' ∧
      { t' with rxbuf := t.rxbuf, trace := t.trace } = t ∧ emitted t'.trace = emitted t.trace

/-! ## Invariants and whole runs -/

/-- The invariants (10_state.md section 9, R34, an inference the spec marks as derived from its rules) hold in the
state after Reset, whatever the environment will present. -/
def Obligations.ResetMeetsTheInvariants : Prop :=
  ∀ (cmds : List Code) (answers : List Answer) (schedule : List Wires), Invariants (resetWith cmds answers schedule)

/-- Every step keeps those invariants, from every state that has them. -/
def Obligations.EveryStepKeepsTheInvariants : Prop :=
  ∀ s t : State, Invariants s → step s = .next t → Invariants t

/-- R34 (the spec derives it from R23 to R29 and R97 to R99): in every state reachable from Reset, with any host, any transport and any schedule: (i) to (vii), the last
with its premise that no `Reset` has occurred in EXCHANGE. -/
def Obligations.ReachableStatesMeetR34 : Prop :=
  ∀ (cmds : List Code) (answers : List Answer) (schedule : List Wires) (n : Nat) (t : State),
    stepN n (resetWith cmds answers schedule) = .next t →
    ¬(t.doneFlag = true ∧ t.faultFlag = true) ∧
    (t.phase = .exchange → t.doneFlag = false ∧ t.faultFlag = false ∧ t.v = 0 ∧ t.i = 0 ∧ t.p = 0 ∧ t.relay = 0 ∧
      t.echo = 0 ∧ legalCode t.cmd = true) ∧
    (∀ k : Fin frameLen, t.txbuf.read k.val = byteAt (encodeCommand t.cmd) k) ∧
    (t.faultFlag = true → t.v = 0 ∧ t.i = 0 ∧ t.p = 0 ∧ t.relay = 0 ∧ t.echo = 0) ∧
    (t.doneFlag = true → ∃ i, t.cmd = encodeCode i ∧ t.ms = decodeTable i t.rxbuf.toFrame ∧
      t.echo = t.rxbuf.read 2) ∧
    (t.cmd = 0 ∨ legalCode t.cmd = true) ∧
    exchanges t.trace = acceptedIssues t.trace ∧
    (abandoned t.trace = 0 → exchanges t.trace = answered t.trace + inFlight t.phase)

/-- No state that meets the invariants stops: the one exception is a next state, a reserved code is rejected, a busy
block waits. -/
def Obligations.EveryStepContinues : Prop :=
  ∀ s : State, Invariants s → Continues s

/-- No step faults, in any state: no rule computes an offset outside a frame (R57), and TransferFault is a next
state (R143). -/
def Obligations.NoStepFaults : Prop :=
  ∀ (s : State) (f : Fault), step s ≠ .fault f

/-- The model's choice (log entry 6): a step refuses in one case only, an inbound frame in EXCHANGE while CMD is
no legal code, where R96 leaves decode undefined. -/
def Obligations.TheOneRefusal : Prop :=
  ∀ (s : State) (r : Refusal), step s = .refused r ↔
    r = .reservedInFlight s.cmd ∧ (wiresNow s).rst = false ∧ (wiresNow s).xferValid = true ∧
    s.phase = .exchange ∧ legalCode s.cmd = false ∧ ∃ rx rest, s.answers = .done rx :: rest

/-- R100 (the spec derives it from R97, R98, R99): issue and answer together are the atomic step Op(c, a). From every idle state the host-visible state
after it is a function of the command and the answer alone, and the trace gains exactly one exchange and its
`Rsp`. -/
def Obligations.TwoEventsAreTheAtomicStep : Prop :=
  ∀ (i : Instr) (a : Answer) (s : State) (cs : List Code) (as : List Answer), s.phase = .idle →
    s.hostCmds = encodeCode i :: cs → s.answers = a :: as →
    (wiresNow s).rst = false → (wiresNow s).cmdValid = true →
    (wiresNow (nextCycle s)).rst = false → (wiresNow (nextCycle s)).xferValid = true →
    ∃ t, stepN 2 s = .next t ∧ hostView t = atomicView i a ∧ t.txbuf = Memory.ofFrame (encodeCommand (encodeCode i)) ∧
      t.hostCmds = cs ∧ t.answers = as ∧
      t.trace = s.trace ++ [.issue (encodeCode i) .accepted, .xferReq (encodeCommand (encodeCode i))] ++ answerEvents a

/-- R62: over any run from any state, the frames handed to the transport are the frames of the legal codes the host
presented, in that order, none reordered, merged, elided or duplicated. -/
def Obligations.FramesGoOutInIssueOrder : Prop :=
  ∀ (n : Nat) (s t : State), stepN n s = .next t → ∃ presented, s.hostCmds = presented ++ t.hostCmds ∧
    requestedFrames t.trace = requestedFrames s.trace ++ (presented.filter legalCode).map encodeCommand

/-- R168 and R172: under the premise XFER_LIVENESS, and with no `Reset` to come, a run of the host's sequence ends,
within the steps of the schedule and two steps a command.
MODEL'S CHOICE: the bound on the steps rests on log entry 3 (DESIGN CHOICE), by which an exhausted schedule presents
host and transport at every step. -/
def Obligations.RunsEndUnderXferLiveness : Prop :=
  ∀ s : State, Invariants s → abandoned s.trace = 0 → NoReset s → XferLiveness s →
    ∃ t, stepN (s.schedule.length + 2 * s.hostCmds.length + 1) s = .next t ∧ RunEnded t

/-- R35 (the spec derives it from R23 and R98): the typed result. After a completion the registers hold the value the command names and zero elsewhere;
after a TransferFault all four read zero. -/
def Obligations.TypedResultAtResponse : Prop :=
  ∀ (i : Instr) (s : State), Invariants s → s.phase = .exchange → s.cmd = encodeCode i →
    (∀ rx rest, s.answers = .done rx :: rest →
      ∃ t, exec i s = .next t ∧ resultOf i t.ms = typedResult rx i ∧
        (i ≠ .readVoltage → i ≠ .readAll → t.v = 0) ∧ (i ≠ .readCurrent → i ≠ .readAll → t.i = 0) ∧
        (i ≠ .readPower → i ≠ .readAll → t.p = 0) ∧
        (i = .readVoltage ∨ i = .readCurrent ∨ i = .readPower → t.relay = 0)) ∧
    (∀ rest, s.answers = .fault :: rest → ∃ t, exec i s = .next t ∧ t.ms = clearedMs)

/-! ## Encodings and pure functions -/

/-- Decode and encode agree: a command's byte decodes to it whatever follows; a sequence of commands survives the
round trip, and bytes that decode as a sequence are that sequence's encoding (R70, R71, R81). -/
def Obligations.DecodeAndEncodeAgree : Prop :=
  (∀ (i : Instr) (rest : List Byte), i.wellFormed = true → decode (encode i ++ rest) = .ok (i, rest)) ∧
  (∀ is : List Instr, decodeAll (encodeAll is) = .ok is) ∧
  (∀ (bs : List Byte) (is : List Instr), decodeAll bs = .ok is → encodeAll is = bs)

/-- R71 and R72: a code is a command exactly when it is one of the seven; the other 249 are reserved and named. -/
def Obligations.SevenLegalCodes : Prop :=
  (∀ c : Code, legalCode c = true ↔ c ∈ [(0x01 : Code), 0x02, 0x03, 0x04, 0x05, 0x06, 0x07]) ∧
  (∀ (c : Code) (i : Instr), decodeCode c = .ok i ↔ c = encodeCode i) ∧
  (∀ c : Code, legalCode c = false → decodeCode c = .error (.reservedCode c)) ∧
  ((List.range 256).filter fun k => !legalCode (BitVec.ofNat 8 k)).length = 249

/-- The words of the seven rows of R71 decode to the commands of those rows, and the table's numbering of bits
gives the same. -/
def Obligations.TableWordsDecode : Prop :=
  decode [0b00000001] = .ok (.readVoltage, []) ∧ decode [0b00000010] = .ok (.readCurrent, []) ∧
  decode [0b00000011] = .ok (.readPower, []) ∧ decode [0b00000100] = .ok (.readRelay, []) ∧
  decode [0b00000101] = .ok (.readAll, []) ∧ decode [0b00000110] = .ok (.setRelayOn, []) ∧
  decode [0b00000111] = .ok (.setRelayOff, []) ∧ decode [0b10000001] = .error (.reservedCode 0x81) ∧
  decodeTableWord 8 5 = some .readAll ∧ decodeTableWord 8 0x81 = none

/-- R90: `encode_command` puts the code at offset 0 and zero in the other 19 bytes, for all 256 values, and is
injective; the block applies it to legal codes only. -/
def Obligations.EncodeCommandFrame : Prop :=
  (∀ (c : Code) (k : Fin frameLen), byteAt (encodeCommand c) k = if k.val = 0 then c else 0x00) ∧
  (∀ c c' : Code, encodeCommand c = encodeCommand c' → c = c') ∧
  (∀ (s t : State) (tx : Frame), step s = .next t → .xferReq tx ∈ t.trace.drop s.trace.length →
    ∃ c, legalCode c = true ∧ tx = encodeCommand c)

/-- R10 and R73: byte k of a frame is bits [8k+7:8k] of its vector, the packing is a bijection, and the outbound
frame's vector is `zext_160(code)`. -/
def Obligations.FrameVectorPacking : Prop :=
  (∀ (f : Frame) (k : Fin frameLen), (packFrame f).extractLsb' (8 * k.val) 8 = byteAt f k) ∧
  (∀ f : Frame, unpackFrame (packFrame f) = f) ∧ (∀ x : BitVec frameBits, packFrame (unpackFrame x) = x) ∧
  (∀ c : Code, packFrame (encodeCommand c) = c.setWidth frameBits)

/-- R91: `payload(rx, n)` is rx[3 .. 3+n-1] for n = 0 to 17; no command uses a larger n. -/
def Obligations.PayloadLocator : Prop :=
  (∀ (rx : Frame) (n : Nat), n ≤ 17 → payload rx n = .ok ((rx.toList.drop 3).take n)) ∧
  ∀ i : Instr, payloadLen i ≤ 17

/-- The model's choice (log entry 7): for n over 17, outside the domain the spec gives `payload`, it faults by
name. -/
def Obligations.PayloadOutsideItsDomain : Prop :=
  ∀ (rx : Frame) (n : Nat), 17 < n → payload rx n = .error (.noSuchOffset .rx 20)

/-- R92, R55 and R130: a float field is the four bytes in little-endian order, each byte kept in its place; the
extractor is a bijection between four bytes and patterns: every pattern arises, and equal patterns come from
equal bytes. -/
def Obligations.FloatFieldIsABijection : Prop :=
  (∀ (rx : Frame) (k : FieldOffset) (j : Fin floatLen),
    (f32At rx k).extractLsb' (8 * j.val) 8 = byteAt rx (fieldOffset k j)) ∧
  (∀ (k : FieldOffset) (w : Word), ∃ rx, f32At rx k = w) ∧
  (∀ (rx rx' : Frame) (k : FieldOffset), f32At rx k = f32At rx' k →
    ∀ j : Fin floatLen, byteAt rx (fieldOffset k j) = byteAt rx' (fieldOffset k j))

/-- R95: `decode_ms` takes the four fields from frame offsets 3, 7, 11 and 15, and reads exactly `payload(rx, 13)`. -/
def Obligations.CombinedReadingOffsets : Prop :=
  (∀ rx : Frame, decodeMs rx =
    { v := le32At rx 3 (by decide), i := le32At rx 7 (by decide), p := le32At rx 11 (by decide)
      relay := byteAt rx 15 }) ∧
  ∀ rx rx' : Frame, payload rx 13 = payload rx' 13 ↔ decodeMs rx = decodeMs rx'

/-- R50: an offset of 20 or more does not exist in either space. A bounded access of n bytes from offset k completes
exactly when k + n <= 20 (the bound of MemRead and MemWrite in 00_scope.md, Notation); what is stored is loaded back,
every byte outside stays, and the canonical form is kept.
MODEL'S CHOICE, not R50's: that any other access faults rather than completes is log entry 7 (DESIGN CHOICE). -/
def Obligations.BoundedAccessToTheSpaces : Prop :=
  (∀ (sp : Space) (m : Memory) (k n : Nat), (∃ bs, load sp m k n = .ok bs) ↔ k + n ≤ 20) ∧
  (∀ (sp : Space) (m : Memory) (k : Nat) (bs : List Byte), (∃ m', store sp m k bs = .ok m') ↔ k + bs.length ≤ 20) ∧
  (∀ (sp : Space) (m m' : Memory) (k : Nat) (bs : List Byte), m.wf = true → store sp m k bs = .ok m' →
    load sp m' k bs.length = .ok bs ∧ (∀ a, a < k ∨ k + bs.length ≤ a → m'.read a = m.read a) ∧ m'.wf = true)

/-- R7: the identities of the wire's constants, and the places of R6's padding and ignored bytes in the frames. -/
def Obligations.WireConstantsAgree : Prop :=
  payloadOffset + payloadMax = frameLen ∧ allLen = 3 * floatLen + flagLen ∧
  [payloadOffset + msOffV, payloadOffset + msOffI, payloadOffset + msOffP, payloadOffset + msOffRelay] =
    [3, 7, 11, 15] ∧ allLen ≤ payloadMax ∧ frameBits = 160 ∧ codeWidth = 8 ∧
  (∀ k, k < frameLen → (isPadding k = true ↔ k ≠ cmdOffset)) ∧
  (∀ (i : Instr) (k : Nat), k < frameLen →
    (isIgnored i k = false ↔ k = echoOffset ∨ (payloadOffset ≤ k ∧ k < payloadOffset + payloadLen i))) ∧
  ∀ i : Instr, payloadOffset + payloadLen i ≤ 16

/-- A whole frame written to a space is read back whole (R58), and a space in canonical form is the space of the
frame it holds. -/
def Obligations.SpacesHoldFrames : Prop :=
  (∀ f : Frame, (Memory.ofFrame f).toFrame = f) ∧ (∀ m : Memory, m.wf = true → Memory.ofFrame m.toFrame = m)

/-! ## What the host reads -/

/-- R27: STATUS[2:0] = FAULT ++ DONE ++ BUSY. -/
def Obligations.StatusBits : Prop :=
  ∀ s : State, (status s).getLsbD 0 = busy s ∧ (status s).getLsbD 1 = s.doneFlag ∧
    (status s).getLsbD 2 = s.faultFlag ∧ (busy s = true ↔ s.phase = .exchange)

/-- R22: `relay_on` is RELAY != 0x00. -/
def Obligations.RelayOnView : Prop :=
  ∀ s : State, relayOn s = true ↔ s.relay ≠ 0x00

/-- R82: `label` gives the operation name of a legal code and the sentinel for every other value.
MODEL'S CHOICE: that the sentinel is rendered as the text "UNKNOWN" is log entry 9 (DESIGN CHOICE). -/
def Obligations.LabelNamesCodes : Prop :=
  label 0x01 = "read_voltage" ∧ label 0x02 = "read_current" ∧ label 0x03 = "read_power" ∧
  label 0x04 = "read_relay" ∧ label 0x05 = "read_all" ∧ label 0x06 = "set_relay_on" ∧ label 0x07 = "set_relay_off" ∧
  ∀ b : Code, legalCode b = false → label b = "UNKNOWN"

/-- The binary32 fields of a pattern (R132, general knowledge in the spec): w = S ++ E ++ F, and the fields in terms
of the four wire bytes. -/
def Obligations.FloatFieldLayout : Prop :=
  (∀ w : Word, floatPattern (floatSign w) (floatExponent w) (floatFraction w) = w) ∧
  (∀ b0 b1 b2 b3 : Byte, floatSign (le32 b0 b1 b2 b3) = b3.extractLsb' 7 1 ∧
    floatExponent (le32 b0 b1 b2 b3) = b3.extractLsb' 0 7 ++ b2.extractLsb' 7 1 ∧
    floatFraction (le32 b0 b1 b2 b3) = b2.extractLsb' 0 7 ++ b1 ++ b0)

/-- The values of some patterns of R133 (general knowledge in the spec). -/
def Obligations.FloatValuesOfExamples : Prop :=
  (floatValue 0x3F800000).toRat = some 1 ∧ (floatValue 0x3F000000).toRat = some (1 / 2) ∧
  (floatValue 0xC0000000).toRat = some (-2) ∧ (floatValue 0x43660000).toRat = some 230 ∧
  (floatValue 0x42E60000).toRat = some 115 ∧ floatValue 0x80000000 = .zero true ∧
  floatValue 0x7F800000 = .infinity false ∧ floatValue 0xFF800000 = .infinity true ∧
  floatValue 0x7FC00000 = .nan true ∧ floatValue 0x7FA00001 = .nan false ∧ floatValue 0xFFFFFFFF = .nan true ∧
  floatValue 0x00000001 = .finite false 1 (-149)
end

