-- ==== Sys2Proof/Laws/Memory.lean ====
section
/-! SUPPORT. The laws of the two spaces: read after write, the canonical form and that every operation keeps
it, equal reads make equal spaces, bounded access, whole-frame moves. -/

namespace Sys2Proof.Machine

theorem Memory.wfFrom_mono {lo hi : Nat} (h : lo ≤ hi) {m : Memory} (hm : Memory.wfFrom hi m = true) :
    Memory.wfFrom lo m = true := by
  cases m with
  | nil => rfl
  | cons e m =>
    obtain ⟨k, b⟩ := e
    simp only [Memory.wfFrom, Bool.and_eq_true, decide_eq_true_eq] at hm ⊢
    exact ⟨⟨⟨by omega, hm.1.1.2⟩, hm.1.2⟩, hm.2⟩

/-- Offsets below the first possible entry read as unlisted. -/
theorem Memory.read_of_wfFrom {lo : Nat} {m : Memory} (hm : Memory.wfFrom lo m = true) {a : Nat} (ha : a < lo) :
    m.read a = unlistedByte := by
  induction m generalizing lo with
  | nil => rfl
  | cons e m ih =>
    obtain ⟨k, b⟩ := e
    simp only [Memory.wfFrom, Bool.and_eq_true, decide_eq_true_eq] at hm
    have hk : a ≠ k := by omega
    simp only [Memory.read, hk, if_false]
    exact ih hm.2 (by omega)

/-- Offsets outside the space read as unlisted. -/
theorem Memory.read_outside {lo : Nat} {m : Memory} (hm : Memory.wfFrom lo m = true) {a : Nat}
    (ha : frameLen ≤ a) : m.read a = unlistedByte := by
  induction m generalizing lo with
  | nil => rfl
  | cons e m ih =>
    obtain ⟨k, b⟩ := e
    simp only [Memory.wfFrom, Bool.and_eq_true, decide_eq_true_eq] at hm
    have hk : a ≠ k := by omega
    simp only [Memory.read, hk, if_false]
    exact ih hm.2

theorem Memory.entry_wfFrom {lo a : Nat} {b : Byte} {m : Memory} (hlo : lo ≤ a) (ha : a < frameLen)
    (hm : Memory.wfFrom (a + 1) m = true) : Memory.wfFrom lo (Memory.entry a b m) = true := by
  unfold Memory.entry
  split
  · exact Memory.wfFrom_mono (by omega) hm
  · rename_i hb
    simp [Memory.wfFrom, hlo, ha, hb, hm]

/-- A write keeps the canonical form. -/
theorem Memory.write_wfFrom {lo a : Nat} {b : Byte} {m : Memory} (hm : Memory.wfFrom lo m = true)
    (hlo : lo ≤ a) (ha : a < frameLen) : Memory.wfFrom lo (Memory.write m a b) = true := by
  induction m generalizing lo with
  | nil => exact Memory.entry_wfFrom hlo ha rfl
  | cons e m ih =>
    obtain ⟨k, x⟩ := e
    simp only [Memory.wfFrom, Bool.and_eq_true, decide_eq_true_eq] at hm
    obtain ⟨⟨⟨h1, h2⟩, h3⟩, h4⟩ := hm
    unfold Memory.write
    split
    · refine Memory.entry_wfFrom hlo ha ?_
      simp only [Memory.wfFrom, Bool.and_eq_true, decide_eq_true_eq]
      exact ⟨⟨⟨by omega, h2⟩, h3⟩, h4⟩
    · split
      · rename_i hak
        subst hak
        exact Memory.entry_wfFrom hlo ha h4
      · simp only [Memory.wfFrom, Bool.and_eq_true, decide_eq_true_eq]
        exact ⟨⟨⟨h1, h2⟩, h3⟩, ih h4 (by omega)⟩

theorem Memory.write_wf {a : Nat} {b : Byte} {m : Memory} (hm : m.wf = true) (ha : a < frameLen) :
    (Memory.write m a b).wf = true :=
  Memory.write_wfFrom hm (Nat.zero_le a) ha

theorem Memory.read_entry {lo a : Nat} {b : Byte} {m : Memory} (hm : Memory.wfFrom lo m = true) (ha : a < lo)
    (x : Nat) : (Memory.entry a b m).read x = if x = a then b else m.read x := by
  unfold Memory.entry
  split
  · rename_i hb
    split
    · rename_i hx
      rw [hx, hb, Memory.read_of_wfFrom hm ha]
    · rfl
  · rfl

/-- Read after write, in a space of canonical form: the written byte there, every other byte as before. -/
theorem Memory.read_write_wfFrom {lo a : Nat} {b : Byte} {m : Memory} (hm : Memory.wfFrom lo m = true) (x : Nat) :
    (Memory.write m a b).read x = if x = a then b else m.read x := by
  induction m generalizing lo with
  | nil => exact Memory.read_entry (lo := a + 1) (m := []) rfl (by omega) x
  | cons e m ih =>
    obtain ⟨k, y⟩ := e
    simp only [Memory.wfFrom, Bool.and_eq_true, decide_eq_true_eq] at hm
    obtain ⟨⟨⟨h1, h2⟩, h3⟩, h4⟩ := hm
    unfold Memory.write
    split
    · rename_i hak
      refine Memory.read_entry (lo := k) (m := (k, y) :: m) ?_ hak x
      simp only [Memory.wfFrom, Bool.and_eq_true, decide_eq_true_eq]
      exact ⟨⟨⟨Nat.le_refl k, h2⟩, h3⟩, h4⟩
    · split
      · rename_i hak
        subst hak
        rw [Memory.read_entry h4 (by omega)]
        by_cases hx : x = a <;> simp [Memory.read, hx]
      · rename_i hlt hne
        have hka : k ≠ a := fun h => hne h.symm
        simp only [Memory.read, ih h4]
        by_cases hx : x = k
        · subst hx; simp [hka]
        · simp [hx]

theorem Memory.read_write {a : Nat} {b : Byte} {m : Memory} (hm : m.wf = true) (x : Nat) :
    (Memory.write m a b).read x = if x = a then b else m.read x :=
  Memory.read_write_wfFrom hm x

/-- Writing consecutive bytes keeps the canonical form. -/
theorem Memory.writeBytes_wf {m : Memory} (hm : m.wf = true) (k : Nat) (bs : List Byte)
    (h : k + bs.length ≤ frameLen) : (m.writeBytes k bs).wf = true := by
  induction bs generalizing m k with
  | nil => exact hm
  | cons b bs ih =>
    simp only [List.length_cons] at h
    exact ih (Memory.write_wf hm (by omega)) (k + 1) (by omega)

/-- Reading after writing consecutive bytes. -/
theorem Memory.read_writeBytes {m : Memory} (hm : m.wf = true) (k : Nat) (bs : List Byte)
    (h : k + bs.length ≤ frameLen) (x : Nat) :
    (m.writeBytes k bs).read x = if k ≤ x ∧ x < k + bs.length then bs.getD (x - k) 0 else m.read x := by
  induction bs generalizing m k with
  | nil => simp [Memory.writeBytes, show ¬(k ≤ x ∧ x < k) by omega]
  | cons b bs ih =>
    simp only [List.length_cons] at h ⊢
    rw [Memory.writeBytes, ih (Memory.write_wf hm (by omega)) (k + 1) (by omega), Memory.read_write hm]
    by_cases hx : x = k
    · subst hx
      simp
    · by_cases h1 : k + 1 ≤ x ∧ x < k + 1 + bs.length
      · obtain ⟨j, rfl⟩ : ∃ j, x = k + 1 + j := ⟨x - (k + 1), by omega⟩
        have e1 : k + 1 + j - (k + 1) = j := by omega
        have e2 : k + 1 + j - k = j + 1 := by omega
        rw [if_pos h1, if_pos (by omega), e1, e2, List.getD_cons_succ]
      · rw [if_neg h1, if_neg hx, if_neg (by omega)]

/-- Spaces of canonical form that read alike are equal lists. -/
theorem Memory.ext_wfFrom {lo : Nat} {m m' : Memory} (hm : Memory.wfFrom lo m = true)
    (hm' : Memory.wfFrom lo m' = true) (h : ∀ x, m.read x = m'.read x) : m = m' := by
  induction m generalizing lo m' with
  | nil =>
    cases m' with
    | nil => rfl
    | cons e m' =>
      obtain ⟨k, b⟩ := e
      simp only [Memory.wfFrom, Bool.and_eq_true, bne_iff_ne] at hm'
      have := h k
      simp only [Memory.read, if_true] at this
      exact absurd this.symm hm'.1.2
  | cons e m ih =>
    obtain ⟨k, b⟩ := e
    have hm0 := hm
    simp only [Memory.wfFrom, Bool.and_eq_true, decide_eq_true_eq, bne_iff_ne] at hm
    obtain ⟨⟨⟨h1, h2⟩, h3⟩, h4⟩ := hm
    cases m' with
    | nil =>
      have := h k
      simp only [Memory.read, if_true] at this
      exact absurd this h3
    | cons e' m' =>
      obtain ⟨k', b'⟩ := e'
      have hm0' := hm'
      simp only [Memory.wfFrom, Bool.and_eq_true, decide_eq_true_eq, bne_iff_ne] at hm'
      obtain ⟨⟨⟨h1', h2'⟩, h3'⟩, h4'⟩ := hm'
      have hkk : k = k' := by
        rcases Nat.lt_trichotomy k k' with hlt | heq | hgt
        · have := h k
          simp only [Memory.read, if_true, if_neg (Nat.ne_of_lt hlt)] at this
          exact absurd (this.trans (Memory.read_of_wfFrom h4' (by omega))) h3
        · exact heq
        · have := h k'
          simp only [Memory.read, if_true, if_neg (Nat.ne_of_lt hgt)] at this
          exact absurd (this.symm.trans (Memory.read_of_wfFrom h4 (by omega))) h3'
      subst hkk
      have hb := h k
      simp only [Memory.read, if_true] at hb
      subst hb
      refine congrArg _ (ih h4 h4' fun x => ?_)
      by_cases hx : x = k
      · subst hx
        rw [Memory.read_of_wfFrom h4 (by omega), Memory.read_of_wfFrom h4' (by omega)]
      · have := h x
        simpa only [Memory.read, if_neg hx] using this

theorem Memory.ext_wf {m m' : Memory} (hm : m.wf = true) (hm' : m'.wf = true)
    (h : ∀ x, m.read x = m'.read x) : m = m' :=
  Memory.ext_wfFrom hm hm' h

/-- The space that holds a frame has the canonical form. -/
theorem Memory.ofFrame_wf (f : Frame) : (Memory.ofFrame f).wf = true :=
  Memory.writeBytes_wf (m := []) rfl 0 f.toList (by simp)

/-- The bytes of a space that holds a frame. -/
theorem Memory.read_ofFrame (f : Frame) (k : Fin frameLen) : (Memory.ofFrame f).read k.val = f[k.val] := by
  rw [Memory.ofFrame, Memory.read_writeBytes rfl 0 f.toList (by simp)]
  have hk := k.isLt
  simp [hk]

/-- Outside the 20 offsets nothing is listed. -/
theorem Memory.read_ofFrame_outside (f : Frame) {a : Nat} (ha : frameLen ≤ a) :
    (Memory.ofFrame f).read a = unlistedByte :=
  Memory.read_outside (Memory.ofFrame_wf f) ha

/-- What `load` answers: exactly the bytes of the offsets asked for, when all exist. -/
theorem load_ok_iff {sp : Space} {m : Memory} {k n : Nat} {bs : List Byte} :
    load sp m k n = .ok bs ↔ k + n ≤ frameLen ∧ bs = (List.range n).map fun j => m.read (k + j) := by
  unfold load
  split <;> simp [*, eq_comm]

/-- What `store` answers: the space with exactly those bytes written, when all offsets exist. -/
theorem store_ok_iff {sp : Space} {m m' : Memory} {k : Nat} {bs : List Byte} :
    store sp m k bs = .ok m' ↔ k + bs.length ≤ frameLen ∧ m' = m.writeBytes k bs := by
  unfold store
  split <;> simp [*, eq_comm]

/-- `store` keeps the canonical form. -/
theorem store_wf {sp : Space} {m m' : Memory} {k : Nat} {bs : List Byte} (hm : m.wf = true)
    (h : store sp m k bs = .ok m') : m'.wf = true := by
  obtain ⟨hk, rfl⟩ := store_ok_iff.mp h
  exact Memory.writeBytes_wf hm k bs hk

end Sys2Proof.Machine
end

