-- ==== Sys2Proof/Laws/Codec.lean ====
section
/-! SUPPORT. What the decoder and the codec's pure functions answer, said once. -/

namespace Sys2Proof

@[simp] theorem decodeCode_encodeCode (i : Instr) : decodeCode (encodeCode i) = .ok i := by
  cases i <;> rfl

theorem encodeCode_injective {i j : Instr} (h : encodeCode i = encodeCode j) : i = j := by
  have := congrArg decodeCode h
  simpa using this

/-- A code that decodes is the code of what it decodes to. -/
theorem eq_encodeCode_of_decodeCode {c : Machine.Code} {i : Instr} (h : decodeCode c = .ok i) : c = encodeCode i := by
  unfold decodeCode at h
  split at h <;> first
    | (cases h; exact BitVec.eq_of_toNat_eq (by assumption))
    | cases h

theorem decodeCode_eq_ok_iff {c : Machine.Code} {i : Instr} : decodeCode c = .ok i ↔ c = encodeCode i :=
  ⟨eq_encodeCode_of_decodeCode, fun h => h ▸ decodeCode_encodeCode i⟩

/-- A code that does not decode is reported as itself. -/
theorem reservedCode_of_decodeCode {c : Machine.Code} {e : DecodeError} (h : decodeCode c = .error e) :
    e = .reservedCode c := by
  unfold decodeCode at h
  split at h <;> cases h
  rfl

theorem decodeCode_of_legal (c : Machine.Code) (h : legalCode c = true) : ∃ i, decodeCode c = .ok i := by
  have hc : c.toNat = 1 ∨ c.toNat = 2 ∨ c.toNat = 3 ∨ c.toNat = 4 ∨ c.toNat = 5 ∨ c.toNat = 6 ∨ c.toNat = 7 := by
    simp only [legalCode, Bool.and_eq_true, beq_iff_eq, bne_iff_ne, ne_eq, ← BitVec.toNat_inj,
      BitVec.extractLsb'_toNat, Nat.shiftRight_eq_div_pow, Machine.codeWidth, Nat.reduceSub, Nat.reducePow] at h
    have h5 : (0 : BitVec 5).toNat = 0 := rfl
    have h3 : (0 : BitVec 3).toNat = 0 := rfl
    rw [h5, h3] at h
    have : c.toNat < 256 := c.isLt
    omega
  unfold decodeCode
  rcases hc with h | h | h | h | h | h | h <;> rw [h] <;> exact ⟨_, rfl⟩

/-- The legal codes are those of the seven commands. -/
theorem legalCode_iff_encodeCode (c : Machine.Code) : legalCode c = true ↔ ∃ i, c = encodeCode i := by
  constructor
  · intro h
    obtain ⟨i, hi⟩ := decodeCode_of_legal c h
    exact ⟨i, eq_encodeCode_of_decodeCode hi⟩
  · rintro ⟨i, rfl⟩
    cases i <;> rfl

/-- A code that is not legal is rejected by name. -/
theorem decodeCode_of_not_legal {c : Machine.Code} (h : legalCode c = false) : decodeCode c = .error (.reservedCode c) := by
  cases hd : decodeCode c with
  | error e => rw [reservedCode_of_decodeCode hd]
  | ok i =>
    rw [(legalCode_iff_encodeCode c).mpr ⟨i, eq_encodeCode_of_decodeCode hd⟩] at h
    cases h

theorem not_legal_of_decodeCode {c : Machine.Code} {e : DecodeError} (h : decodeCode c = .error e) :
    legalCode c = false := by
  cases hl : legalCode c with
  | false => rfl
  | true =>
    obtain ⟨i, rfl⟩ := (legalCode_iff_encodeCode c).mp hl
    simp at h

/-- What `decode` answers on one byte. -/
@[simp] theorem decode_singleton (c : Machine.Code) :
    decode [c] = match decodeCode c with
      | .ok i => .ok (i, [])
      | .error e => .error e := rfl

end Sys2Proof

namespace Sys2Proof.Machine

/-- The outbound frame, byte by byte. -/
theorem byteAt_encodeCommand (c : Machine.Code) (k : Fin frameLen) :
    byteAt (encodeCommand c) k = if k.val = cmdOffset then c else 0x00 := by
  by_cases h : k.val = 0
  · simp [byteAt, encodeCommand, h]
  · simp [byteAt, encodeCommand, h, Ne.symm h]

/-- The padding of an outbound frame is zero (R52). -/
theorem encodeCommand_padding (c : Code) (k : Fin frameLen) (h : isPadding k.val = true) :
    byteAt (encodeCommand c) k = 0x00 := by
  simp only [isPadding, padFirst, Bool.and_eq_true, decide_eq_true_eq] at h
  rw [byteAt_encodeCommand, if_neg (by simp only [cmdOffset]; omega)]

/-- The offsets a command does not ignore are the echo and its payload (R53). -/
theorem isIgnored_eq_false_iff (i : Instr) (k : Nat) :
    isIgnored i k = false ↔ k = echoOffset ∨ (payloadOffset ≤ k ∧ k < payloadOffset + payloadLen i) := by
  have h : 1 ≤ payloadLen i := by cases i <;> decide
  simp only [isIgnored, ignFirst, ignLast, echoOffset, payloadOffset, Bool.or_eq_false_iff, Bool.and_eq_false_iff,
    decide_eq_false_iff_not]
  omega

/-- The byte of `le32` in each position. -/
theorem extractLsb'_le32 (b0 b1 b2 b3 : Byte) :
    (le32 b0 b1 b2 b3).extractLsb' 0 8 = b0 ∧ (le32 b0 b1 b2 b3).extractLsb' 8 8 = b1 ∧
    (le32 b0 b1 b2 b3).extractLsb' 16 8 = b2 ∧ (le32 b0 b1 b2 b3).extractLsb' 24 8 = b3 := by
  unfold le32
  refine ⟨?_, ?_, ?_, ?_⟩ <;>
  · apply BitVec.eq_of_getLsbD_eq
    intro i hi
    have h8 : i < 8 := hi
    simp only [BitVec.getLsbD_extractLsb', BitVec.getLsbD_append, hi, decide_true, Bool.true_and]
    try split
    all_goals (try (first | omega | (congr 1; omega)))
    all_goals (try split)
    all_goals (try (first | omega | (congr 1; omega)))
    all_goals (try split)
    all_goals (first | omega | (congr 1; omega))

end Sys2Proof.Machine
end

