-- ==== Sys2Proof/Laws/State.lean ====
section
/-! SUPPORT. One lemma per field per named update of the state, each true by unfolding, so that no later proof
unfolds a record update. -/

namespace Sys2Proof.Machine

@[simp] theorem acceptIssue_v (c : Code) (s : State) : (acceptIssue c s).v = clearPattern := rfl
@[simp] theorem acceptIssue_i (c : Code) (s : State) : (acceptIssue c s).i = clearPattern := rfl
@[simp] theorem acceptIssue_p (c : Code) (s : State) : (acceptIssue c s).p = clearPattern := rfl
@[simp] theorem acceptIssue_relay (c : Code) (s : State) : (acceptIssue c s).relay = clearByte := rfl
@[simp] theorem acceptIssue_echo (c : Code) (s : State) : (acceptIssue c s).echo = clearByte := rfl
@[simp] theorem acceptIssue_cmd (c : Code) (s : State) : (acceptIssue c s).cmd = c := rfl
@[simp] theorem acceptIssue_phase (c : Code) (s : State) : (acceptIssue c s).phase = .exchange := rfl
@[simp] theorem acceptIssue_doneFlag (c : Code) (s : State) : (acceptIssue c s).doneFlag = false := rfl
@[simp] theorem acceptIssue_faultFlag (c : Code) (s : State) : (acceptIssue c s).faultFlag = false := rfl
@[simp] theorem acceptIssue_txbuf (c : Code) (s : State) : (acceptIssue c s).txbuf = Memory.ofFrame (encodeCommand c) := by
  simp only [acceptIssue]
@[simp] theorem acceptIssue_rxbuf (c : Code) (s : State) : (acceptIssue c s).rxbuf = openBuffer s.draws := rfl
@[simp] theorem acceptIssue_hostCmds (c : Code) (s : State) : (acceptIssue c s).hostCmds = s.hostCmds := rfl
@[simp] theorem acceptIssue_answers (c : Code) (s : State) : (acceptIssue c s).answers = s.answers := rfl
@[simp] theorem acceptIssue_schedule (c : Code) (s : State) : (acceptIssue c s).schedule = s.schedule := rfl
@[simp] theorem acceptIssue_trace (c : Code) (s : State) : (acceptIssue c s).trace = s.trace ++ [.issue c .accepted, .xferReq (encodeCommand c)] := rfl
@[simp] theorem acceptIssue_draws (c : Code) (s : State) : (acceptIssue c s).draws = s.draws + 1 := rfl

@[simp] theorem rejectIssue_v (c : Code) (s : State) : (rejectIssue c s).v = s.v := rfl
@[simp] theorem rejectIssue_i (c : Code) (s : State) : (rejectIssue c s).i = s.i := rfl
@[simp] theorem rejectIssue_p (c : Code) (s : State) : (rejectIssue c s).p = s.p := rfl
@[simp] theorem rejectIssue_relay (c : Code) (s : State) : (rejectIssue c s).relay = s.relay := rfl
@[simp] theorem rejectIssue_echo (c : Code) (s : State) : (rejectIssue c s).echo = s.echo := rfl
@[simp] theorem rejectIssue_cmd (c : Code) (s : State) : (rejectIssue c s).cmd = s.cmd := rfl
@[simp] theorem rejectIssue_phase (c : Code) (s : State) : (rejectIssue c s).phase = s.phase := rfl
@[simp] theorem rejectIssue_doneFlag (c : Code) (s : State) : (rejectIssue c s).doneFlag = s.doneFlag := rfl
@[simp] theorem rejectIssue_faultFlag (c : Code) (s : State) : (rejectIssue c s).faultFlag = s.faultFlag := rfl
@[simp] theorem rejectIssue_txbuf (c : Code) (s : State) : (rejectIssue c s).txbuf = s.txbuf := rfl
@[simp] theorem rejectIssue_rxbuf (c : Code) (s : State) : (rejectIssue c s).rxbuf = s.rxbuf := rfl
@[simp] theorem rejectIssue_hostCmds (c : Code) (s : State) : (rejectIssue c s).hostCmds = s.hostCmds := rfl
@[simp] theorem rejectIssue_answers (c : Code) (s : State) : (rejectIssue c s).answers = s.answers := rfl
@[simp] theorem rejectIssue_schedule (c : Code) (s : State) : (rejectIssue c s).schedule = s.schedule := rfl
@[simp] theorem rejectIssue_trace (c : Code) (s : State) : (rejectIssue c s).trace = s.trace ++ [.issue c .rejected] := rfl
@[simp] theorem rejectIssue_draws (c : Code) (s : State) : (rejectIssue c s).draws = s.draws := rfl

@[simp] theorem xferDone_v (wr : Frame → MeasurementSet → MeasurementSet) (rx : Frame) (s : State) : (xferDone wr rx s).v = (wr rx s.ms).v := by
  simp only [xferDone]
@[simp] theorem xferDone_i (wr : Frame → MeasurementSet → MeasurementSet) (rx : Frame) (s : State) : (xferDone wr rx s).i = (wr rx s.ms).i := by
  simp only [xferDone]
@[simp] theorem xferDone_p (wr : Frame → MeasurementSet → MeasurementSet) (rx : Frame) (s : State) : (xferDone wr rx s).p = (wr rx s.ms).p := by
  simp only [xferDone]
@[simp] theorem xferDone_relay (wr : Frame → MeasurementSet → MeasurementSet) (rx : Frame) (s : State) : (xferDone wr rx s).relay = (wr rx s.ms).relay := by
  simp only [xferDone]
@[simp] theorem xferDone_echo (wr : Frame → MeasurementSet → MeasurementSet) (rx : Frame) (s : State) : (xferDone wr rx s).echo = echoOf rx := by
  simp only [xferDone]
@[simp] theorem xferDone_cmd (wr : Frame → MeasurementSet → MeasurementSet) (rx : Frame) (s : State) : (xferDone wr rx s).cmd = s.cmd := rfl
@[simp] theorem xferDone_phase (wr : Frame → MeasurementSet → MeasurementSet) (rx : Frame) (s : State) : (xferDone wr rx s).phase = .idle := rfl
@[simp] theorem xferDone_doneFlag (wr : Frame → MeasurementSet → MeasurementSet) (rx : Frame) (s : State) : (xferDone wr rx s).doneFlag = true := rfl
@[simp] theorem xferDone_faultFlag (wr : Frame → MeasurementSet → MeasurementSet) (rx : Frame) (s : State) : (xferDone wr rx s).faultFlag = s.faultFlag := rfl
@[simp] theorem xferDone_txbuf (wr : Frame → MeasurementSet → MeasurementSet) (rx : Frame) (s : State) : (xferDone wr rx s).txbuf = s.txbuf := rfl
@[simp] theorem xferDone_rxbuf (wr : Frame → MeasurementSet → MeasurementSet) (rx : Frame) (s : State) : (xferDone wr rx s).rxbuf = Memory.ofFrame rx := by
  simp only [xferDone]
@[simp] theorem xferDone_hostCmds (wr : Frame → MeasurementSet → MeasurementSet) (rx : Frame) (s : State) : (xferDone wr rx s).hostCmds = s.hostCmds := rfl
@[simp] theorem xferDone_answers (wr : Frame → MeasurementSet → MeasurementSet) (rx : Frame) (s : State) : (xferDone wr rx s).answers = s.answers := rfl
@[simp] theorem xferDone_schedule (wr : Frame → MeasurementSet → MeasurementSet) (rx : Frame) (s : State) : (xferDone wr rx s).schedule = s.schedule := rfl
@[simp] theorem xferDone_trace (wr : Frame → MeasurementSet → MeasurementSet) (rx : Frame) (s : State) : (xferDone wr rx s).trace = s.trace ++ [.xferDone rx, .rsp .ok] := rfl
@[simp] theorem xferDone_draws (wr : Frame → MeasurementSet → MeasurementSet) (rx : Frame) (s : State) : (xferDone wr rx s).draws = s.draws := rfl

@[simp] theorem raiseTransferFault_v (s : State) : (raiseTransferFault s).v = s.v := rfl
@[simp] theorem raiseTransferFault_i (s : State) : (raiseTransferFault s).i = s.i := rfl
@[simp] theorem raiseTransferFault_p (s : State) : (raiseTransferFault s).p = s.p := rfl
@[simp] theorem raiseTransferFault_relay (s : State) : (raiseTransferFault s).relay = s.relay := rfl
@[simp] theorem raiseTransferFault_echo (s : State) : (raiseTransferFault s).echo = s.echo := rfl
@[simp] theorem raiseTransferFault_cmd (s : State) : (raiseTransferFault s).cmd = s.cmd := rfl
@[simp] theorem raiseTransferFault_phase (s : State) : (raiseTransferFault s).phase = .idle := rfl
@[simp] theorem raiseTransferFault_doneFlag (s : State) : (raiseTransferFault s).doneFlag = s.doneFlag := rfl
@[simp] theorem raiseTransferFault_faultFlag (s : State) : (raiseTransferFault s).faultFlag = true := rfl
@[simp] theorem raiseTransferFault_txbuf (s : State) : (raiseTransferFault s).txbuf = s.txbuf := rfl
@[simp] theorem raiseTransferFault_rxbuf (s : State) : (raiseTransferFault s).rxbuf = openBuffer s.draws := rfl
@[simp] theorem raiseTransferFault_hostCmds (s : State) : (raiseTransferFault s).hostCmds = s.hostCmds := rfl
@[simp] theorem raiseTransferFault_answers (s : State) : (raiseTransferFault s).answers = s.answers := rfl
@[simp] theorem raiseTransferFault_schedule (s : State) : (raiseTransferFault s).schedule = s.schedule := rfl
@[simp] theorem raiseTransferFault_trace (s : State) : (raiseTransferFault s).trace = s.trace ++ [.xferFault, .rsp .transferFault] := rfl
@[simp] theorem raiseTransferFault_draws (s : State) : (raiseTransferFault s).draws = s.draws + 1 := rfl

@[simp] theorem resetEvent_v (s : State) : (resetEvent s).v = clearPattern := rfl
@[simp] theorem resetEvent_i (s : State) : (resetEvent s).i = clearPattern := rfl
@[simp] theorem resetEvent_p (s : State) : (resetEvent s).p = clearPattern := rfl
@[simp] theorem resetEvent_relay (s : State) : (resetEvent s).relay = clearByte := rfl
@[simp] theorem resetEvent_echo (s : State) : (resetEvent s).echo = clearByte := rfl
@[simp] theorem resetEvent_cmd (s : State) : (resetEvent s).cmd = 0x00 := rfl
@[simp] theorem resetEvent_phase (s : State) : (resetEvent s).phase = .idle := rfl
@[simp] theorem resetEvent_doneFlag (s : State) : (resetEvent s).doneFlag = false := rfl
@[simp] theorem resetEvent_faultFlag (s : State) : (resetEvent s).faultFlag = false := rfl
@[simp] theorem resetEvent_txbuf (s : State) : (resetEvent s).txbuf = Memory.ofFrame (Vector.replicate frameLen 0x00) := by
  simp only [resetEvent]
@[simp] theorem resetEvent_rxbuf (s : State) : (resetEvent s).rxbuf = openBuffer s.draws := rfl
@[simp] theorem resetEvent_hostCmds (s : State) : (resetEvent s).hostCmds = s.hostCmds := rfl
@[simp] theorem resetEvent_answers (s : State) : (resetEvent s).answers = s.answers := rfl
@[simp] theorem resetEvent_schedule (s : State) : (resetEvent s).schedule = s.schedule := rfl
@[simp] theorem resetEvent_trace (s : State) : (resetEvent s).trace = s.trace ++ [.reset] := rfl
@[simp] theorem resetEvent_draws (s : State) : (resetEvent s).draws = s.draws + 1 := rfl

@[simp] theorem nextCycle_v (s : State) : (nextCycle s).v = s.v := rfl
@[simp] theorem nextCycle_i (s : State) : (nextCycle s).i = s.i := rfl
@[simp] theorem nextCycle_p (s : State) : (nextCycle s).p = s.p := rfl
@[simp] theorem nextCycle_relay (s : State) : (nextCycle s).relay = s.relay := rfl
@[simp] theorem nextCycle_echo (s : State) : (nextCycle s).echo = s.echo := rfl
@[simp] theorem nextCycle_cmd (s : State) : (nextCycle s).cmd = s.cmd := rfl
@[simp] theorem nextCycle_phase (s : State) : (nextCycle s).phase = s.phase := rfl
@[simp] theorem nextCycle_doneFlag (s : State) : (nextCycle s).doneFlag = s.doneFlag := rfl
@[simp] theorem nextCycle_faultFlag (s : State) : (nextCycle s).faultFlag = s.faultFlag := rfl
@[simp] theorem nextCycle_txbuf (s : State) : (nextCycle s).txbuf = s.txbuf := rfl
@[simp] theorem nextCycle_rxbuf (s : State) : (nextCycle s).rxbuf = s.rxbuf := rfl
@[simp] theorem nextCycle_hostCmds (s : State) : (nextCycle s).hostCmds = s.hostCmds := rfl
@[simp] theorem nextCycle_answers (s : State) : (nextCycle s).answers = s.answers := rfl
@[simp] theorem nextCycle_schedule (s : State) : (nextCycle s).schedule = s.schedule.tail := rfl
@[simp] theorem nextCycle_trace (s : State) : (nextCycle s).trace = s.trace := rfl
@[simp] theorem nextCycle_draws (s : State) : (nextCycle s).draws = s.draws := rfl

@[simp] theorem presentCode_v (c : Code) (s : State) : (presentCode c s).v = s.v := rfl
@[simp] theorem presentCode_i (c : Code) (s : State) : (presentCode c s).i = s.i := rfl
@[simp] theorem presentCode_p (c : Code) (s : State) : (presentCode c s).p = s.p := rfl
@[simp] theorem presentCode_relay (c : Code) (s : State) : (presentCode c s).relay = s.relay := rfl
@[simp] theorem presentCode_echo (c : Code) (s : State) : (presentCode c s).echo = s.echo := rfl
@[simp] theorem presentCode_cmd (c : Code) (s : State) : (presentCode c s).cmd = s.cmd := rfl
@[simp] theorem presentCode_phase (c : Code) (s : State) : (presentCode c s).phase = .idle := rfl
@[simp] theorem presentCode_doneFlag (c : Code) (s : State) : (presentCode c s).doneFlag = s.doneFlag := rfl
@[simp] theorem presentCode_faultFlag (c : Code) (s : State) : (presentCode c s).faultFlag = s.faultFlag := rfl
@[simp] theorem presentCode_txbuf (c : Code) (s : State) : (presentCode c s).txbuf = s.txbuf := rfl
@[simp] theorem presentCode_rxbuf (c : Code) (s : State) : (presentCode c s).rxbuf = s.rxbuf := rfl
@[simp] theorem presentCode_hostCmds (c : Code) (s : State) : (presentCode c s).hostCmds = c :: s.hostCmds.tail := rfl
@[simp] theorem presentCode_answers (c : Code) (s : State) : (presentCode c s).answers = s.answers := rfl
@[simp] theorem presentCode_schedule (c : Code) (s : State) : (presentCode c s).schedule = Wires.eager :: s.schedule.tail := rfl
@[simp] theorem presentCode_trace (c : Code) (s : State) : (presentCode c s).trace = s.trace := rfl
@[simp] theorem presentCode_draws (c : Code) (s : State) : (presentCode c s).draws = s.draws := rfl

@[simp] theorem takeAnswer_v (s : State) : (takeAnswer s).v = s.v := rfl
@[simp] theorem takeAnswer_i (s : State) : (takeAnswer s).i = s.i := rfl
@[simp] theorem takeAnswer_p (s : State) : (takeAnswer s).p = s.p := rfl
@[simp] theorem takeAnswer_relay (s : State) : (takeAnswer s).relay = s.relay := rfl
@[simp] theorem takeAnswer_echo (s : State) : (takeAnswer s).echo = s.echo := rfl
@[simp] theorem takeAnswer_cmd (s : State) : (takeAnswer s).cmd = s.cmd := rfl
@[simp] theorem takeAnswer_phase (s : State) : (takeAnswer s).phase = s.phase := rfl
@[simp] theorem takeAnswer_doneFlag (s : State) : (takeAnswer s).doneFlag = s.doneFlag := rfl
@[simp] theorem takeAnswer_faultFlag (s : State) : (takeAnswer s).faultFlag = s.faultFlag := rfl
@[simp] theorem takeAnswer_txbuf (s : State) : (takeAnswer s).txbuf = s.txbuf := rfl
@[simp] theorem takeAnswer_rxbuf (s : State) : (takeAnswer s).rxbuf = s.rxbuf := rfl
@[simp] theorem takeAnswer_hostCmds (s : State) : (takeAnswer s).hostCmds = s.hostCmds := rfl
@[simp] theorem takeAnswer_answers (s : State) : (takeAnswer s).answers = s.answers.tail := rfl
@[simp] theorem takeAnswer_schedule (s : State) : (takeAnswer s).schedule = s.schedule := rfl
@[simp] theorem takeAnswer_trace (s : State) : (takeAnswer s).trace = s.trace := rfl
@[simp] theorem takeAnswer_draws (s : State) : (takeAnswer s).draws = s.draws := rfl
@[simp] theorem takeAnswer_ms (s : State) : (takeAnswer s).ms = s.ms := rfl

@[simp] theorem takeCommand_v (s : State) : (takeCommand s).v = s.v := rfl
@[simp] theorem takeCommand_i (s : State) : (takeCommand s).i = s.i := rfl
@[simp] theorem takeCommand_p (s : State) : (takeCommand s).p = s.p := rfl
@[simp] theorem takeCommand_relay (s : State) : (takeCommand s).relay = s.relay := rfl
@[simp] theorem takeCommand_echo (s : State) : (takeCommand s).echo = s.echo := rfl
@[simp] theorem takeCommand_cmd (s : State) : (takeCommand s).cmd = s.cmd := rfl
@[simp] theorem takeCommand_phase (s : State) : (takeCommand s).phase = s.phase := rfl
@[simp] theorem takeCommand_doneFlag (s : State) : (takeCommand s).doneFlag = s.doneFlag := rfl
@[simp] theorem takeCommand_faultFlag (s : State) : (takeCommand s).faultFlag = s.faultFlag := rfl
@[simp] theorem takeCommand_txbuf (s : State) : (takeCommand s).txbuf = s.txbuf := rfl
@[simp] theorem takeCommand_rxbuf (s : State) : (takeCommand s).rxbuf = s.rxbuf := rfl
@[simp] theorem takeCommand_hostCmds (s : State) : (takeCommand s).hostCmds = s.hostCmds.tail := rfl
@[simp] theorem takeCommand_answers (s : State) : (takeCommand s).answers = s.answers := rfl
@[simp] theorem takeCommand_schedule (s : State) : (takeCommand s).schedule = s.schedule := rfl
@[simp] theorem takeCommand_trace (s : State) : (takeCommand s).trace = s.trace := rfl
@[simp] theorem takeCommand_draws (s : State) : (takeCommand s).draws = s.draws := rfl
@[simp] theorem takeCommand_ms (s : State) : (takeCommand s).ms = s.ms := rfl

@[simp] theorem acceptIssue_ms (c : Code) (s : State) :
    (acceptIssue c s).ms = { v := clearPattern, i := clearPattern, p := clearPattern, relay := clearByte } := rfl
@[simp] theorem rejectIssue_ms (c : Code) (s : State) : (rejectIssue c s).ms = s.ms := rfl
@[simp] theorem xferDone_ms (wr : Frame → MeasurementSet → MeasurementSet) (rx : Frame) (s : State) :
    (xferDone wr rx s).ms = wr rx s.ms := rfl
@[simp] theorem raiseTransferFault_ms (s : State) : (raiseTransferFault s).ms = s.ms := rfl
@[simp] theorem resetEvent_ms (s : State) :
    (resetEvent s).ms = { v := clearPattern, i := clearPattern, p := clearPattern, relay := clearByte } := rfl
@[simp] theorem nextCycle_ms (s : State) : (nextCycle s).ms = s.ms := rfl

end Sys2Proof.Machine
end

