-- ==== Sys2Proof/Laws/Ops.lean ====
section
/-! SUPPORT. What a command can do, said once: `exec` is `runCommand` of the command's code and register writes,
and `runCommand` either issues, completes, faults, or leaves the state as it is. -/

namespace Sys2Proof.Machine

/-- The register writes of each command, by the name its meaning uses. -/
def writesOf : Instr → Frame → MeasurementSet → MeasurementSet
  | .readVoltage => writeVoltage
  | .readCurrent => writeCurrent
  | .readPower => writePower
  | .readRelay => writeRelay
  | .readAll => writeAll
  | .setRelayOn => writeRelayOn
  | .setRelayOff => writeRelayOff

theorem exec_eq_runCommand (i : Instr) (s : State) : exec i s = runCommand (encodeCode i) (writesOf i) s := by
  cases i <;> rfl

theorem runCommand_idle {c : Code} {wr : Frame → MeasurementSet → MeasurementSet} {s : State}
    (h : s.phase = .idle) : runCommand c wr s = .next (acceptIssue c s) := by
  simp only [runCommand, h]

theorem runCommand_done {c : Code} {wr : Frame → MeasurementSet → MeasurementSet} {s : State} {rx : Frame}
    {rest : List Answer} (h : s.phase = .exchange) (hc : s.cmd = c) (ha : s.answers = .done rx :: rest) :
    runCommand c wr s = .next (xferDone wr rx (takeAnswer s)) := by
  simp only [runCommand, h, hc, ha, if_true]

theorem runCommand_fault {c : Code} {wr : Frame → MeasurementSet → MeasurementSet} {s : State}
    {rest : List Answer} (h : s.phase = .exchange) (hc : s.cmd = c) (ha : s.answers = .fault :: rest) :
    runCommand c wr s = .next (raiseTransferFault (takeAnswer s)) := by
  simp only [runCommand, h, hc, ha, if_true]

theorem runCommand_noAnswer {c : Code} {wr : Frame → MeasurementSet → MeasurementSet} {s : State}
    (h : s.phase = .exchange) (ha : s.answers = []) : runCommand c wr s = .next s := by
  simp only [runCommand, h, ha]
  split <;> rfl

theorem runCommand_held {c : Code} {wr : Frame → MeasurementSet → MeasurementSet} {s : State}
    (h : s.phase = .exchange) (hc : s.cmd ≠ c) : runCommand c wr s = .next s := by
  simp only [runCommand, h, hc, if_false]

/-- Everything a command can do at one event. -/
theorem runCommand_cases (c : Code) (wr : Frame → MeasurementSet → MeasurementSet) (s : State) :
    (s.phase = .idle ∧ runCommand c wr s = .next (acceptIssue c s)) ∨
    (∃ rx rest, s.phase = .exchange ∧ s.cmd = c ∧ s.answers = .done rx :: rest ∧
      runCommand c wr s = .next (xferDone wr rx (takeAnswer s))) ∨
    (∃ rest, s.phase = .exchange ∧ s.cmd = c ∧ s.answers = .fault :: rest ∧
      runCommand c wr s = .next (raiseTransferFault (takeAnswer s))) ∨
    (s.phase = .exchange ∧ (s.answers = [] ∨ s.cmd ≠ c) ∧ runCommand c wr s = .next s) := by
  cases hp : s.phase with
  | idle => exact .inl ⟨rfl, runCommand_idle hp⟩
  | exchange =>
    by_cases hc : s.cmd = c
    · cases ha : s.answers with
      | nil => exact .inr (.inr (.inr ⟨rfl, .inl rfl, runCommand_noAnswer hp ha⟩))
      | cons a rest =>
        cases a with
        | done rx => exact .inr (.inl ⟨rx, rest, rfl, hc, rfl, runCommand_done hp hc ha⟩)
        | fault => exact .inr (.inr (.inl ⟨rest, rfl, hc, rfl, runCommand_fault hp hc ha⟩))
    · exact .inr (.inr (.inr ⟨rfl, .inr hc, runCommand_held hp hc⟩))

end Sys2Proof.Machine
end

