-- ==== Sys2Proof/Laws/PerInstr.lean ====
section
/-! SUPPORT. Facts about every command as syntax, one lemma per constructor. -/

namespace Sys2Proof.Laws

/-- The command is well formed, is one byte, its code is legal, and that byte decodes to it (30_encoding.md
R70, R71). -/
def CodeRoundTrip.Statement (i : Instr) : Prop :=
  i.wellFormed = true ∧ (encode i).length = 1 ∧ legalCode (encodeCode i) = true ∧
    decode (encode i) = .ok (i, [])

theorem CodeRoundTrip.readVoltage : CodeRoundTrip.Statement .readVoltage := ⟨rfl, rfl, rfl, rfl⟩
theorem CodeRoundTrip.readCurrent : CodeRoundTrip.Statement .readCurrent := ⟨rfl, rfl, rfl, rfl⟩
theorem CodeRoundTrip.readPower : CodeRoundTrip.Statement .readPower := ⟨rfl, rfl, rfl, rfl⟩
theorem CodeRoundTrip.readRelay : CodeRoundTrip.Statement .readRelay := ⟨rfl, rfl, rfl, rfl⟩
theorem CodeRoundTrip.readAll : CodeRoundTrip.Statement .readAll := ⟨rfl, rfl, rfl, rfl⟩
theorem CodeRoundTrip.setRelayOn : CodeRoundTrip.Statement .setRelayOn := ⟨rfl, rfl, rfl, rfl⟩
theorem CodeRoundTrip.setRelayOff : CodeRoundTrip.Statement .setRelayOff := ⟨rfl, rfl, rfl, rfl⟩

end Sys2Proof.Laws
end

