-- ==== Sys2Proof/Laws/Step.lean ====
section
/-! SUPPORT. What a step can do, said once. -/

namespace Sys2Proof.Machine

/-- What happens in a step, with the state it leaves. -/
inductive StepTo (s : State) : State → Prop where
  /-- `rst` overrides everything. -/
  | reset (h : (wiresNow s).rst = true) : StepTo s (resetEvent (nextCycle s))
  /-- Nothing is presented, or nothing of it is enabled. -/
  | nothing (h : (wiresNow s).rst = false) : StepTo s (nextCycle s)
  /-- A reserved code is presented in IDLE. -/
  | rejected (c : Code) (rest : List Code) (h : (wiresNow s).rst = false) (hp : s.phase = .idle)
      (hh : s.hostCmds = c :: rest) (hc : legalCode c = false) :
      StepTo s (rejectIssue c (takeCommand (nextCycle s)))
  /-- A command is presented in IDLE. -/
  | accepted (i : Instr) (rest : List Code) (h : (wiresNow s).rst = false) (hp : s.phase = .idle)
      (hh : s.hostCmds = encodeCode i :: rest) :
      StepTo s (acceptIssue (encodeCode i) (takeCommand (nextCycle s)))
  /-- The transport returns a frame to the command in flight. -/
  | completed (i : Instr) (rx : Frame) (rest : List Answer) (h : (wiresNow s).rst = false)
      (hp : s.phase = .exchange) (hc : s.cmd = encodeCode i) (ha : s.answers = .done rx :: rest) :
      StepTo s (xferDone (writesOf i) rx (takeAnswer (nextCycle s)))
  /-- The transport faults. -/
  | faulted (rest : List Answer) (h : (wiresNow s).rst = false) (hp : s.phase = .exchange)
      (ha : s.answers = .fault :: rest) :
      StepTo s (raiseTransferFault (takeAnswer (nextCycle s)))

theorem step_of_rst {s : State} (h : (wiresNow s).rst = true) : step s = .next (resetEvent (nextCycle s)) := by
  simp only [step, stepWith, h, if_true]

theorem step_idle {s : State} (h : (wiresNow s).rst = false) (hp : s.phase = .idle) :
    step s = if (wiresNow s).cmdValid then issueStep exec (nextCycle s) else .next (nextCycle s) := by
  simp [step, stepWith, h, hp]

theorem step_exchange {s : State} (h : (wiresNow s).rst = false) (hp : s.phase = .exchange) :
    step s = if (wiresNow s).xferValid then answerStep exec (nextCycle s) else .next (nextCycle s) := by
  simp [step, stepWith, h, hp]

theorem issueStep_nil {run : Instr → State → Host.Outcome State Fault Refusal} {s : State}
    (hh : s.hostCmds = []) : issueStep run s = .next s := by
  simp only [issueStep, fetch, hh]

theorem issueStep_legal {run : Instr → State → Host.Outcome State Fault Refusal} {s : State} {i : Instr}
    {rest : List Code} (hh : s.hostCmds = encodeCode i :: rest) :
    issueStep run s = run i (takeCommand s) := by
  simp only [issueStep, fetch, hh, decode_singleton, decodeCode_encodeCode]

theorem issueStep_reserved {run : Instr → State → Host.Outcome State Fault Refusal} {s : State} {c : Code}
    {rest : List Code} (hh : s.hostCmds = c :: rest) (hc : legalCode c = false) :
    issueStep run s = .next (rejectIssue c (takeCommand s)) := by
  simp only [issueStep, fetch, hh, decode_singleton, decodeCode_of_not_legal hc]

theorem answerStep_legal {run : Instr → State → Host.Outcome State Fault Refusal} {s : State} {i : Instr}
    (hc : s.cmd = encodeCode i) : answerStep run s = run i s := by
  simp only [answerStep, hc, decode_singleton, decodeCode_encodeCode]

theorem answerStep_reserved {run : Instr → State → Host.Outcome State Fault Refusal} {s : State}
    (hc : legalCode s.cmd = false) : answerStep run s = orphanAnswer s := by
  simp only [answerStep, decode_singleton, decodeCode_of_not_legal hc]

/-- EVERYTHING A STEP CAN ANSWER: a next state by `StepTo`, or the one refusal. -/
theorem step_cases (s : State) :
    (∃ t, step s = .next t ∧ StepTo s t) ∨
    (step s = .refused (.reservedInFlight s.cmd) ∧ s.phase = .exchange ∧ legalCode s.cmd = false ∧
      ∃ rx rest, s.answers = .done rx :: rest) := by
  cases hr : (wiresNow s).rst with
  | true => exact .inl ⟨_, step_of_rst hr, .reset hr⟩
  | false =>
    cases hp : s.phase with
    | idle =>
      rw [step_idle hr hp]
      split
      · cases hh : s.hostCmds with
        | nil => exact .inl ⟨_, issueStep_nil (s := nextCycle s) hh, .nothing hr⟩
        | cons c rest =>
          cases hl : legalCode c with
          | false => exact .inl ⟨_, issueStep_reserved (s := nextCycle s) hh hl, .rejected c rest hr hp hh hl⟩
          | true =>
            obtain ⟨i, rfl⟩ := (legalCode_iff_encodeCode c).mp hl
            refine .inl ⟨_, ?_, .accepted i rest hr hp hh⟩
            rw [issueStep_legal (s := nextCycle s) (i := i) hh, exec_eq_runCommand,
              runCommand_idle (s := takeCommand (nextCycle s)) hp]
      · exact .inl ⟨_, rfl, .nothing hr⟩
    | exchange =>
      rw [step_exchange hr hp]
      split
      · cases hl : legalCode s.cmd with
        | false =>
          rw [answerStep_reserved (s := nextCycle s) hl]
          cases ha : s.answers with
          | nil => exact .inl ⟨_, by simp [orphanAnswer, ha], .nothing hr⟩
          | cons a rest =>
            cases a with
            | done rx => exact .inr ⟨by simp [orphanAnswer, ha], rfl, rfl, rx, rest, rfl⟩
            | fault => exact .inl ⟨_, by simp [orphanAnswer, ha], .faulted rest hr hp ha⟩
        | true =>
          obtain ⟨i, hi⟩ := (legalCode_iff_encodeCode s.cmd).mp hl
          rw [answerStep_legal (s := nextCycle s) hi, exec_eq_runCommand]
          cases ha : s.answers with
          | nil => exact .inl ⟨_, runCommand_noAnswer (s := nextCycle s) hp ha, .nothing hr⟩
          | cons a rest =>
            cases a with
            | done rx =>
              exact .inl ⟨_, runCommand_done (s := nextCycle s) hp hi ha, .completed i rx rest hr hp hi ha⟩
            | fault =>
              exact .inl ⟨_, runCommand_fault (s := nextCycle s) hp hi ha, .faulted rest hr hp ha⟩
      · exact .inl ⟨_, rfl, .nothing hr⟩

/-- The inversion a proof about a next state cites. -/
theorem stepTo_of_step {s t : State} (h : step s = .next t) : StepTo s t := by
  rcases step_cases s with ⟨u, hu, hs⟩ | ⟨hr, -⟩
  · rw [hu] at h
    cases h
    exact hs
  · rw [hr] at h
    cases h

end Sys2Proof.Machine
end

