-- ==== Sys2Proof/Laws/Trace.lean ====
section
/-! SUPPORT. The counts over a trace that has been extended, one lemma per count. -/

namespace Sys2Proof.Machine

@[simp] theorem acceptedIssues_append (t u : List Event) :
    acceptedIssues (t ++ u) = acceptedIssues t + acceptedIssues u := List.countP_append
@[simp] theorem exchanges_append (t u : List Event) :
    exchanges (t ++ u) = exchanges t + exchanges u := List.countP_append
@[simp] theorem answered_append (t u : List Event) :
    answered (t ++ u) = answered t + answered u := List.countP_append
@[simp] theorem responses_append (t u : List Event) :
    responses (t ++ u) = responses t + responses u := List.countP_append
@[simp] theorem emitted_append (t u : List Event) :
    emitted (t ++ u) = emitted t ++ emitted u := List.filter_append ..
@[simp] theorem requestedFrames_append (t u : List Event) :
    requestedFrames (t ++ u) = requestedFrames t ++ requestedFrames u := List.filterMap_append ..

/-- What a trace says of PHASE and of abandoned exchanges, extended by one event. -/
theorem foldl_track_concat (t : List Event) (e : Event) :
    (t ++ [e]).foldl track (.idle, 0) = track (tracePhase t, abandoned t) e := by
  simp [tracePhase, abandoned]

/-- Extended by two events. -/
theorem foldl_track_concat_two (t : List Event) (e e' : Event) :
    (t ++ [e, e']).foldl track (.idle, 0) = track (track (tracePhase t, abandoned t) e) e' := by
  simp [tracePhase, abandoned]

end Sys2Proof.Machine
end

