-- ==== Sys2Proof/Tests/Slice0.lean ====
section
/-! SUPPORT. Tests: the smoke test of WellFormed, every command's word written out from R71, vectors of
95_test_vectors.md (each named), and a witness for every statement that has hypotheses. -/

namespace Sys2Proof.Tests

open Sys2Proof Sys2Proof.Machine Sys2Proof.Stated

/-! ## WellFormed smoke: the check on a code refuses ill-formed values (R72) -/

theorem test_legal_refuses_zero : legalCode 0x00 = false := by decide
theorem test_legal_refuses_high_bits : legalCode 0x81 = false := by decide
theorem test_legal_refuses_eight : legalCode 0x08 = false := by decide
theorem test_legal_accepts_seven : legalCode 0x07 = true := by decide
theorem test_program_refuses_reserved : legalProgram [0x01, 0x08] = false := by decide

/-! ## Decode: each row's word from R71 -/

theorem test_word_read_voltage : decode [0b00000001] = .ok (.readVoltage, []) := rfl
theorem test_word_read_current : decode [0b00000010] = .ok (.readCurrent, []) := rfl
theorem test_word_read_power : decode [0b00000011] = .ok (.readPower, []) := rfl
theorem test_word_read_relay : decode [0b00000100] = .ok (.readRelay, []) := rfl
theorem test_word_read_all : decode [0b00000101] = .ok (.readAll, []) := rfl
theorem test_word_set_relay_on : decode [0b00000110] = .ok (.setRelayOn, []) := rfl
theorem test_word_set_relay_off : decode [0b00000111] = .ok (.setRelayOff, []) := rfl
theorem test_reserved_0x81 : decode [0b10000001] = .error (.reservedCode 0x81) := rfl
theorem test_no_byte : decode [] = .error .noByte := rfl
theorem test_table_word : decodeTableWord 8 0x06 = some .setRelayOn := by decide
theorem test_parse_pseudo : parseCommand "set_relay(false)" = some .setRelayOff := by decide
/-- 95_test_vectors.md 2.8. -/
theorem test_label_unknown : label 0x12 = "UNKNOWN" := by decide

/-! ## Codec vectors (95_test_vectors.md 2.1 to 2.4) -/

/-- The frame RICH, rx[k] = 0x10 + k. -/
def rich : Frame :=
  #v[0x10, 0x11, 0x12, 0x13, 0x14, 0x15, 0x16, 0x17, 0x18, 0x19,
     0x1A, 0x1B, 0x1C, 0x1D, 0x1E, 0x1F, 0x20, 0x21, 0x22, 0x23]

/-- ONES. -/
def ones : Frame := Vector.replicate 20 0xFF

/-- EX1 and EN10. -/
theorem test_encode_command_keeps_bit_7 :
    encodeCommand 0x81 = #v[0x81, 0, 0, 0, 0, 0, 0, 0, 0, 0, 0, 0, 0, 0, 0, 0, 0, 0, 0, 0] := by decide
/-- PL1, PL3, PL6. -/
theorem test_payload_empty : payload rich 0 = .ok [] := rfl
theorem test_payload_four : payload rich 4 = .ok [0x13, 0x14, 0x15, 0x16] := rfl
theorem test_payload_outside : payload rich 18 = .error (.noSuchOffset .rx 20) := rfl
/-- FP1, FP13, FP15, FP16. -/
theorem test_le32_one : le32 0x00 0x00 0x80 0x3F = 0x3F800000 := by decide
theorem test_le32_byte_order : le32 0x12 0x34 0x56 0x78 = 0x78563412 := by decide
theorem test_f32_at_3 : f32At rich 3 = 0x16151413 := by decide
theorem test_f32_at_11 : f32At rich 11 = 0x1E1D1C1B := by decide
/-- FL1, FL4. -/
theorem test_flag_off : on 0x00 = false := by decide
theorem test_flag_on : on 0x80 = true := by decide
/-- R10: byte 1 of a frame is bits 15:8. -/
theorem test_pack_byte_one : (packFrame rich).extractLsb' 8 8 = 0x11 := by decide
/-- R132 on FP7: sign 0, exponent 0x85, fraction 0x76E979. -/
theorem test_float_fields : floatSign 0x42F6E979 = 0 ∧ floatExponent 0x42F6E979 = 0x85 ∧
    floatFraction 0x42F6E979 = 0x76E979 := by decide
/-- The one state of a space after a write of zero is the space without an entry. -/
theorem test_write_zero_removes : Memory.write [(3, 7), (5, 9)] 3 0 = [(5, 9)] := by decide
theorem test_load_past_the_end : load .tx [] 19 2 = .error (.noSuchOffset .tx 20) := rfl

/-! ## One step of each command (95_test_vectors.md 2.5 and 2.6) -/

/-- The tuple of 95_test_vectors.md: CMD ECHO V I P RELAY DONE FAULT PHASE. -/
structure Tuple where
  cmd : Code
  echo : Byte
  v : Word
  i : Word
  p : Word
  relay : Byte
  done : Bool
  fault : Bool
  phase : Phase
  deriving DecidableEq, Repr

/-- The answered step's next state, as a tuple. -/
def nextTuple (o : Host.Outcome State Fault Refusal) : Option Tuple :=
  match o with
  | .next t => some ⟨t.cmd, t.echo, t.v, t.i, t.p, t.relay, t.doneFlag, t.faultFlag, t.phase⟩
  | _ => none

/-- The block with command `i` in flight from reset, and the transport's answers. -/
def inFlightOf (i : Instr) (answers : List Answer) : State :=
  { State.reset with
    phase := .exchange, cmd := encodeCode i, txbuf := Memory.ofFrame (encodeCommand (encodeCode i))
    answers := answers
    trace := [.issue (encodeCode i) .accepted, .xferReq (encodeCommand (encodeCode i))] }

/-- The block after a completed read_voltage of 1.0 (start state of X4 to X6). -/
def afterVoltage (cmds : List Code) : State :=
  { State.reset with
    cmd := 0x01, echo := 0x01, v := 0x3F800000, doneFlag := true
    txbuf := [(0, 1)], rxbuf := [(2, 1), (5, 0x80), (6, 0x3F)], hostCmds := cmds }

theorem test_M1_read_voltage : nextTuple (step (inFlightOf .readVoltage [.done rich])) =
    some ⟨0x01, 0x12, 0x16151413, 0, 0, 0, true, false, .idle⟩ := by decide
theorem test_M2_read_current : nextTuple (step (inFlightOf .readCurrent [.done rich])) =
    some ⟨0x02, 0x12, 0, 0x16151413, 0, 0, true, false, .idle⟩ := by decide
theorem test_M3_read_power : nextTuple (step (inFlightOf .readPower [.done rich])) =
    some ⟨0x03, 0x12, 0, 0, 0x16151413, 0, true, false, .idle⟩ := by decide
theorem test_M4_read_relay : nextTuple (step (inFlightOf .readRelay [.done rich])) =
    some ⟨0x04, 0x12, 0, 0, 0, 0x13, true, false, .idle⟩ := by decide
theorem test_M5_read_all : nextTuple (step (inFlightOf .readAll [.done rich])) =
    some ⟨0x05, 0x12, 0x16151413, 0x1A191817, 0x1E1D1C1B, 0x1F, true, false, .idle⟩ := by decide
theorem test_M6_set_relay_on : nextTuple (step (inFlightOf .setRelayOn [.done rich])) =
    some ⟨0x06, 0x12, 0, 0, 0, 0x13, true, false, .idle⟩ := by decide
theorem test_M7_set_relay_off : nextTuple (step (inFlightOf .setRelayOff [.done rich])) =
    some ⟨0x07, 0x12, 0, 0, 0, 0x13, true, false, .idle⟩ := by decide
/-- CF3: only V is written. -/
theorem test_CF3_read_voltage_ones : nextTuple (step (inFlightOf .readVoltage [.done ones])) =
    some ⟨0x01, 0xFF, 0xFFFFFFFF, 0, 0, 0, true, false, .idle⟩ := by decide
/-- CF4: only RELAY is written. -/
theorem test_CF4_read_relay_ones : nextTuple (step (inFlightOf .readRelay [.done ones])) =
    some ⟨0x04, 0xFF, 0, 0, 0, 0xFF, true, false, .idle⟩ := by decide
/-- X1: TransferFault. -/
theorem test_X1_transfer_fault : nextTuple (step (inFlightOf .readAll [.fault])) =
    some ⟨0x05, 0, 0, 0, 0, 0, false, true, .idle⟩ := by decide
/-- X4: a reserved code is rejected and V keeps 1.0. -/
theorem test_X4_rejected : nextTuple (step (afterVoltage [0x08])) =
    some ⟨0x01, 0x01, 0x3F800000, 0, 0, 0, true, false, .idle⟩ := by decide
/-- CF7, its second Issue: the 1.0 is cleared when the next command is accepted. -/
theorem test_issue_clears : nextTuple (step (afterVoltage [0x01])) =
    some ⟨0x01, 0, 0, 0, 0, 0, false, false, .exchange⟩ := by decide
/-- X7: an Issue during an exchange waits. -/
theorem test_X7_held : step { inFlightOf .readVoltage [] with hostCmds := [0x02] } =
    .next { inFlightOf .readVoltage [] with hostCmds := [0x02] } := rfl
/-- X9 and X10: Reset, over everything else that is presented. -/
theorem test_X10_reset_in_exchange :
    nextTuple (step { inFlightOf .setRelayOn [.done rich] with schedule := [⟨true, true, true⟩] }) =
      some ⟨0, 0, 0, 0, 0, 0, false, false, .idle⟩ := by decide
/-- The first command after reset, placed by the host's own operation. -/
theorem test_first_command : nextTuple (step (State.reset.withFetchWord 8 0x05)) =
    some ⟨0x05, 0, 0, 0, 0, 0, false, false, .exchange⟩ := by decide
theorem test_reset_idles : step State.reset = .next State.reset := rfl
theorem test_status_after_fault : status { State.reset with faultFlag := true } = 0b100 := by decide

/-! ## Witnesses: a concrete state that meets each statement's hypotheses -/

theorem legal_one : legalCode 0x01 = true := by decide

theorem inFlightOf_invariants (answers : List Answer) (cmds : List Code) (ws : List Wires) :
    Invariants { inFlightOf .readVoltage answers with hostCmds := cmds, schedule := ws } where
  flagsExclusive h := nomatch h.1
  busyCleared _ := ⟨rfl, rfl, rfl, rfl, legal_one⟩
  txIsFrame := by simp only [inFlightOf]
  faultCleared h := by cases h
  doneDecoded h := by cases h
  cmdLegal := .inr legal_one
  rxCanonical := rfl
  oneExchangeEach := rfl
  exchangesBalance := rfl
  phaseTraced := rfl
  oneResponseEach := rfl

theorem witness_ResetOverridesAndClears :
    (wiresNow { afterVoltage [0x02] with schedule := [⟨true, true, true⟩] }).rst = true := rfl

theorem witness_ResetAbandonsTheExchange :
    ∃ t, Invariants { inFlightOf .readVoltage [.done rich] with hostCmds := [], schedule := [⟨true, true, true⟩] } ∧
      (inFlightOf .readVoltage []).phase = .exchange ∧
      step { inFlightOf .readVoltage [.done rich] with hostCmds := [], schedule := [⟨true, true, true⟩] } = .next t :=
  ⟨_, inFlightOf_invariants _ _ _, rfl, rfl⟩

/-- The clauses of `CommandRuns`, for each of the seven commands: idle; done; fault; no answer; another command in
flight. -/
theorem witness_CommandRuns (i : Instr) : State.reset.phase = .idle ∧
    ((inFlightOf i [.done rich]).phase = .exchange ∧ (inFlightOf i [.done rich]).cmd = encodeCode i ∧
      (inFlightOf i [.done rich]).answers = [.done rich]) ∧
    (inFlightOf i [.fault]).answers = [.fault] ∧ (inFlightOf i []).answers = [] ∧
    { inFlightOf i [] with cmd := 0x00 }.cmd ≠ encodeCode i := by
  refine ⟨rfl, ⟨rfl, rfl, rfl⟩, rfl, rfl, ?_⟩
  cases i <;> decide

theorem witness_ReadVoltageRuns : State.reset.phase = .idle ∧
    (inFlightOf .readVoltage [.done rich]).phase = .exchange ∧ (inFlightOf .readVoltage [.done rich]).cmd = 0x01 ∧
    (inFlightOf .readVoltage [.done rich]).answers = [.done rich] ∧
    (inFlightOf .readVoltage [.fault]).answers = [.fault] := ⟨rfl, rfl, rfl, rfl, rfl⟩
theorem witness_ReadCurrentRuns : State.reset.phase = .idle ∧
    (inFlightOf .readCurrent [.done rich]).phase = .exchange ∧ (inFlightOf .readCurrent [.done rich]).cmd = 0x02 ∧
    (inFlightOf .readCurrent [.done rich]).answers = [.done rich] ∧
    (inFlightOf .readCurrent [.fault]).answers = [.fault] := ⟨rfl, rfl, rfl, rfl, rfl⟩
theorem witness_ReadPowerRuns : State.reset.phase = .idle ∧
    (inFlightOf .readPower [.done rich]).phase = .exchange ∧ (inFlightOf .readPower [.done rich]).cmd = 0x03 ∧
    (inFlightOf .readPower [.done rich]).answers = [.done rich] ∧
    (inFlightOf .readPower [.fault]).answers = [.fault] := ⟨rfl, rfl, rfl, rfl, rfl⟩
theorem witness_ReadRelayRuns : State.reset.phase = .idle ∧
    (inFlightOf .readRelay [.done rich]).phase = .exchange ∧ (inFlightOf .readRelay [.done rich]).cmd = 0x04 ∧
    (inFlightOf .readRelay [.done rich]).answers = [.done rich] ∧
    (inFlightOf .readRelay [.fault]).answers = [.fault] := ⟨rfl, rfl, rfl, rfl, rfl⟩
theorem witness_ReadAllRuns : State.reset.phase = .idle ∧
    (inFlightOf .readAll [.done rich]).phase = .exchange ∧ (inFlightOf .readAll [.done rich]).cmd = 0x05 ∧
    (inFlightOf .readAll [.done rich]).answers = [.done rich] ∧
    (inFlightOf .readAll [.fault]).answers = [.fault] := ⟨rfl, rfl, rfl, rfl, rfl⟩
theorem witness_SetRelayOnRuns : State.reset.phase = .idle ∧
    (inFlightOf .setRelayOn [.done rich]).phase = .exchange ∧ (inFlightOf .setRelayOn [.done rich]).cmd = 0x06 ∧
    (inFlightOf .setRelayOn [.done rich]).answers = [.done rich] ∧
    (inFlightOf .setRelayOn [.fault]).answers = [.fault] := ⟨rfl, rfl, rfl, rfl, rfl⟩
theorem witness_SetRelayOffRuns : State.reset.phase = .idle ∧
    (inFlightOf .setRelayOff [.done rich]).phase = .exchange ∧ (inFlightOf .setRelayOff [.done rich]).cmd = 0x07 ∧
    (inFlightOf .setRelayOff [.done rich]).answers = [.done rich] ∧
    (inFlightOf .setRelayOff [.fault]).answers = [.fault] := ⟨rfl, rfl, rfl, rfl, rfl⟩

theorem witness_SetRelayPseudoOperation : (afterVoltage []).phase = .idle := rfl

theorem witness_FourFloatReadsReturnThePattern :
    CarriesAtPayload rich 0x16151413 ∧ (inFlightOf .readVoltage [.done rich]).phase = .exchange ∧
    (inFlightOf .readVoltage [.done rich]).answers = [.done rich] ∧
    (inFlightOf .readVoltage [.done rich]).cmd = 0x01 ∧ (inFlightOf .readCurrent [.done rich]).cmd = 0x02 ∧
    (inFlightOf .readPower [.done rich]).cmd = 0x03 ∧ (inFlightOf .readAll [.done rich]).cmd = 0x05 :=
  ⟨⟨by decide, by decide, by decide, by decide⟩, rfl, rfl, rfl, rfl, rfl, rfl⟩

theorem witness_StepRunsTheDecodedCommand :
    ((wiresNow (afterVoltage [0x07])).rst = false ∧ (wiresNow (afterVoltage [0x07])).cmdValid = true ∧
      (afterVoltage [0x07]).phase = .idle ∧ (afterVoltage [0x07]).hostCmds = [0x07] ∧
      Instr.setRelayOff.wellFormed = true ∧ decode [0x07] = .ok (.setRelayOff, [])) ∧
    ((wiresNow (inFlightOf .readAll [.fault])).rst = false ∧ (wiresNow (inFlightOf .readAll [.fault])).xferValid = true ∧
      (inFlightOf .readAll [.fault]).phase = .exchange ∧
      decode [(inFlightOf .readAll [.fault]).cmd] = .ok (.readAll, [])) :=
  ⟨⟨rfl, rfl, rfl, rfl, rfl, rfl⟩, rfl, rfl, rfl, rfl⟩

/-- The boundary codes 0x00, 0x08 and 0xFF. -/
theorem witness_ReservedCodesAreRejected :
    (wiresNow (afterVoltage [0x08])).rst = false ∧ (wiresNow (afterVoltage [0x08])).cmdValid = true ∧
    (afterVoltage [0x08]).phase = .idle ∧ (afterVoltage [0x08]).hostCmds = [0x08] ∧
    ∀ c ∈ [(0x00 : Code), 0x08, 0xFF], ∀ k ∈ [(0x01 : Code), 0x02, 0x03, 0x04, 0x05, 0x06, 0x07], c ≠ k :=
  ⟨rfl, rfl, rfl, rfl, by decide⟩

theorem witness_IssueWaitsWhileBusy :
    (inFlightOf .readAll [.done rich]).phase = .exchange ∧ ∃ t, step (inFlightOf .readAll [.done rich]) = .next t :=
  ⟨rfl, _, rfl⟩

theorem witness_NoAnswerHangsUntilReset :
    (inFlightOf .readAll []).phase = .exchange ∧ (inFlightOf .readAll []).answers = [] ∧
    (∀ w ∈ (inFlightOf .readAll []).schedule, w.rst = false) ∧
    (wiresNow { inFlightOf .readAll [] with schedule := [⟨true, false, false⟩] }).rst = true :=
  ⟨rfl, rfl, by decide, rfl⟩

theorem witness_TransferFaultEntry :
    (wiresNow (inFlightOf .setRelayOn [.fault])).rst = false ∧
    (wiresNow (inFlightOf .setRelayOn [.fault])).xferValid = true ∧
    (inFlightOf .setRelayOn [.fault]).phase = .exchange ∧ (inFlightOf .setRelayOn [.fault]).answers = [.fault] :=
  ⟨rfl, rfl, rfl, rfl⟩

theorem witness_NoInboundFrameIsAFault :
    Invariants { inFlightOf .readVoltage [.done ones] with hostCmds := [], schedule := [] } ∧
    (wiresNow (inFlightOf .readVoltage [.done ones])).rst = false ∧
    (wiresNow (inFlightOf .readVoltage [.done ones])).xferValid = true ∧
    (inFlightOf .readVoltage [.done ones]).phase = .exchange ∧
    (inFlightOf .readVoltage [.done ones]).answers = [.done ones] :=
  ⟨inFlightOf_invariants _ _ _, rfl, rfl, rfl, rfl⟩

/-- A step of each of the six groups answers a next state: nothing, rejected, accepted, completed, faulted, reset. -/
theorem witness_stepsAnswerNext :
    (∃ t, step State.reset = .next t) ∧ (∃ t, step (afterVoltage [0x08]) = .next t) ∧
    (∃ t, step (afterVoltage [0x02]) = .next t) ∧ (∃ t, step (inFlightOf .readAll [.done rich]) = .next t) ∧
    (∃ t, step (inFlightOf .readAll [.fault]) = .next t) ∧
    (∃ t, step { inFlightOf .readAll [] with schedule := [⟨true, true, true⟩] } = .next t) :=
  ⟨⟨_, rfl⟩, ⟨_, rfl⟩, ⟨_, rfl⟩, ⟨_, rfl⟩, ⟨_, rfl⟩, ⟨_, rfl⟩⟩

/-- OneExchangePerAcceptedIssue, WritersOfTheControlState and WritersOfTheDataState: a step with a next state. -/
theorem witness_OneExchangePerAcceptedIssue : ∃ t, step (afterVoltage [0x02]) = .next t := ⟨_, rfl⟩
theorem witness_WritersOfTheControlState : ∃ t, step (inFlightOf .readAll [.fault]) = .next t := ⟨_, rfl⟩
theorem witness_WritersOfTheDataState : ∃ t, step (inFlightOf .readAll [.done rich]) = .next t := ⟨_, rfl⟩

theorem witness_IssueStoresOnlyTheOutboundFrame : (afterVoltage [0x08]).phase = .idle := rfl

theorem witness_CompletionWritesOnlyItsRegisters :
    (inFlightOf .readPower [.done rich, .fault]).phase = .exchange ∧
    (inFlightOf .readPower [.done rich, .fault]).cmd = encodeCode .readPower ∧
    (inFlightOf .readPower [.done rich, .fault]).answers = [.done rich, .fault] := ⟨rfl, rfl, rfl⟩

/-- CF5: frames that differ at offsets 0, 1 and past the payload only. -/
theorem witness_IgnoredBytesNeverMatter :
    (inFlightOf .readVoltage []).phase = .exchange ∧ (inFlightOf .readVoltage []).cmd = encodeCode .readVoltage ∧
    AgreeOnRead (payloadLen .readVoltage) rich ((rich.set 0 0xDE).set 7 0xEE) ∧
    rich ≠ (rich.set 0 0xDE).set 7 0xEE := by
  refine ⟨rfl, rfl, ?_, by decide⟩
  unfold AgreeOnRead
  decide

theorem witness_EveryStepKeepsTheInvariants :
    ∃ t, Invariants { inFlightOf .readVoltage [.done rich] with hostCmds := [0x05], schedule := [] } ∧
      step { inFlightOf .readVoltage [.done rich] with hostCmds := [0x05], schedule := [] } = .next t :=
  ⟨_, inFlightOf_invariants _ _ _, rfl⟩

theorem witness_ReachableStatesMeetR34 :
    ∃ t, stepN 2 (resetWith [0x05] [.done rich] []) = .next t ∧ t.doneFlag = true ∧ abandoned t.trace = 0 :=
  ⟨_, rfl, rfl, rfl⟩

/-- The remaining clauses of ReachableStatesMeetR34: a state in EXCHANGE, and a state with FAULT = 1. -/
theorem witness_ReachableStatesMeetR34_busy_and_faulted :
    (∃ t, stepN 1 (resetWith [0x05] [] []) = .next t ∧ t.phase = .exchange) ∧
    (∃ t, stepN 2 (resetWith [0x05] [.fault] []) = .next t ∧ t.faultFlag = true) :=
  ⟨⟨_, rfl, rfl⟩, ⟨_, rfl, rfl⟩⟩

theorem witness_EveryStepContinues :
    Invariants { inFlightOf .readVoltage [.fault] with hostCmds := [], schedule := [] } := inFlightOf_invariants _ _ _

theorem witness_TheOneRefusal :
    step { inFlightOf .readVoltage [.done rich] with cmd := 0x08 } = .refused (.reservedInFlight 0x08) := rfl

theorem witness_TwoEventsAreTheAtomicStep :
    (afterVoltage [0x05]).phase = .idle ∧ (afterVoltage [0x05]).hostCmds = [encodeCode .readAll] ∧
    { afterVoltage [0x05] with answers := [.done rich] }.answers = [.done rich] ∧
    (wiresNow (afterVoltage [0x05])).rst = false ∧ (wiresNow (afterVoltage [0x05])).cmdValid = true ∧
    (wiresNow (nextCycle (afterVoltage [0x05]))).rst = false ∧
    (wiresNow (nextCycle (afterVoltage [0x05]))).xferValid = true := ⟨rfl, rfl, rfl, rfl, rfl, rfl, rfl⟩

theorem witness_FramesGoOutInIssueOrder :
    ∃ t, stepN 4 (resetWith [0x00, 0x05, 0x03] [.fault] []) = .next t ∧ t.hostCmds = [] := ⟨_, rfl, rfl⟩

theorem witness_RunsEndUnderXferLiveness :
    Invariants { inFlightOf .readVoltage [.done rich, .fault] with hostCmds := [0x08, 0x05], schedule := [⟨false, false, false⟩] } ∧
    abandoned (inFlightOf .readVoltage []).trace = 0 ∧
    NoReset { inFlightOf .readVoltage [.done rich, .fault] with hostCmds := [0x08, 0x05], schedule := [⟨false, false, false⟩] } ∧
    XferLiveness { inFlightOf .readVoltage [.done rich, .fault] with hostCmds := [0x08, 0x05], schedule := [⟨false, false, false⟩] } := by
  refine ⟨inFlightOf_invariants _ _ _, rfl, ?_, ?_⟩
  · unfold NoReset; decide
  · unfold XferLiveness; decide

theorem witness_TypedResultAtResponse :
    Invariants { inFlightOf .readVoltage [.done rich] with hostCmds := [], schedule := [] } ∧
    (inFlightOf .readVoltage [.done rich]).phase = .exchange ∧
    (inFlightOf .readVoltage [.done rich]).cmd = encodeCode .readVoltage ∧
    (inFlightOf .readVoltage [.done rich]).answers = [.done rich] ∧
    (inFlightOf .readVoltage [.fault]).answers = [.fault] := ⟨inFlightOf_invariants _ _ _, rfl, rfl, rfl, rfl⟩

theorem witness_DecodeAndEncodeAgree :
    Instr.readAll.wellFormed = true ∧ decodeAll [0x01, 0x05] = .ok [.readVoltage, .readAll] := ⟨rfl, rfl⟩

theorem witness_SevenLegalCodes : legalCode 0x00 = false ∧ legalCode 0xFF = false := by decide

theorem witness_EncodeCommandFrame : encodeCommand 0x05 = encodeCommand 0x05 ∧
    ∃ t, step (afterVoltage [0x05]) = .next t ∧ .xferReq (encodeCommand 0x05) ∈ t.trace.drop 0 :=
  ⟨rfl, _, rfl, by decide⟩

theorem witness_CombinedReadingOffsets : payload rich 13 = payload (rich.set 16 0) 13 := rfl

/-- The boundary lengths 17 and 18. -/
theorem witness_PayloadLocator : 17 ≤ 17 ∧ (0 : Nat) ≤ 17 := by decide
theorem witness_PayloadOutsideItsDomain : 17 < 18 := by decide

theorem witness_FloatFieldIsABijection : f32At rich 3 = f32At (rich.set 0 0xAA) 3 := by decide

theorem witness_BoundedAccessToTheSpaces :
    Memory.wf [(19, 1)] = true ∧ store .tx [(19, 1)] 18 [0x05, 0x00] = .ok [(18, 5)] := ⟨rfl, rfl⟩

theorem witness_SpacesHoldFrames : Memory.wf [(0, 5), (19, 1)] = true := rfl

/-- The first and the last offset of a frame, and the last payload byte of `read_all` beside the first ignored one. -/
theorem witness_WireConstantsAgree : 0 < frameLen ∧ 19 < frameLen ∧ isPadding 0 = false ∧ isPadding 19 = true ∧
    isIgnored .readAll 15 = false ∧ isIgnored .readAll 16 = true ∧ isIgnored .readRelay 1 = true := by decide

theorem witness_LabelNamesCodes : legalCode 0x12 = false := rfl

end Sys2Proof.Tests
end

section
/-! Proofs of the statements about the wires of 00_scope.md: the packing of a frame into its vector (R10, R73), the
step around the meanings (R13), and the identities of the wire's constants (R6, R7). -/

namespace Sys2Proof.Machine

/-! ### The packing of a frame -/

theorem natOfBytes_lt (bs : List Byte) : natOfBytes bs < 2 ^ (8 * bs.length) := by
  induction bs with
  | nil => decide
  | cons b bs ih =>
    have hb : b.toNat < 2 ^ 8 := b.isLt
    rw [natOfBytes, List.length_cons, Nat.mul_succ, Nat.pow_add]
    omega

/-- Byte `k` of the list is digit `k` in base 256; past the end the digits are 0. -/
theorem natOfBytes_digit (bs : List Byte) (k : Nat) :
    natOfBytes bs / 2 ^ (8 * k) % 2 ^ 8 = (bs.getD k 0).toNat := by
  induction bs generalizing k with
  | nil => simp [natOfBytes]
  | cons b bs ih =>
    have hb : b.toNat < 2 ^ 8 := b.isLt
    cases k with
    | zero => simp only [natOfBytes, List.getD_cons_zero]; omega
    | succ k =>
      have hshift : natOfBytes (b :: bs) / 2 ^ 8 = natOfBytes bs := by simp only [natOfBytes]; omega
      rw [Nat.mul_succ, Nat.add_comm, Nat.pow_add, ← Nat.div_div_eq_div_mul, hshift, ih, List.getD_cons_succ]

theorem packFrame_toNat (f : Frame) : (packFrame f).toNat = natOfBytes f.toList := by
  have h := natOfBytes_lt f.toList
  rw [Vector.length_toList] at h
  exact Nat.mod_eq_of_lt h

/-- R10: byte k of a frame is bits [8k+7:8k] of its vector. -/
@[simp] theorem extractLsb'_packFrame (f : Frame) (k : Fin frameLen) :
    (packFrame f).extractLsb' (8 * k.val) 8 = byteAt f k := by
  apply BitVec.eq_of_toNat_eq
  rw [BitVec.extractLsb'_toNat, packFrame_toNat, Nat.shiftRight_eq_div_pow, natOfBytes_digit]
  simp [byteAt]

@[simp] theorem byteAt_unpackFrame (x : BitVec frameBits) (k : Fin frameLen) :
    byteAt (unpackFrame x) k = x.extractLsb' (8 * k.val) 8 := by
  simp [byteAt, unpackFrame]

theorem eq_of_byteAt_eq {f g : Frame} (h : ∀ k, byteAt f k = byteAt g k) : f = g :=
  Vector.ext fun k hk => h ⟨k, hk⟩

/-- The 20 byte slices of a vector determine it. -/
theorem eq_of_slices_eq {x y : BitVec frameBits}
    (h : ∀ k : Fin frameLen, x.extractLsb' (8 * k.val) 8 = y.extractLsb' (8 * k.val) 8) : x = y := by
  apply BitVec.eq_of_getLsbD_eq
  intro n hn
  have hbyte : n / 8 < frameLen := Nat.div_lt_of_lt_mul hn
  have hslice := congrArg (·.getLsbD (n % 8)) (h ⟨n / 8, hbyte⟩)
  simpa [BitVec.getLsbD_extractLsb', Nat.mod_lt, Nat.div_add_mod] using hslice

theorem unpackFrame_packFrame (f : Frame) : unpackFrame (packFrame f) = f :=
  eq_of_byteAt_eq fun k => by simp

theorem packFrame_unpackFrame (x : BitVec frameBits) : packFrame (unpackFrame x) = x :=
  eq_of_slices_eq fun k => by simp

/-- The byte slices of `zext_160(c)`: the code in the lowest, zeros above. -/
theorem extractLsb'_setWidth_code (c : Code) (k : Fin frameLen) :
    (c.setWidth frameBits).extractLsb' (8 * k.val) 8 = if k.val = cmdOffset then c else 0x00 := by
  apply BitVec.eq_of_getLsbD_eq
  intro n hn
  have hk : 8 * k.val + n < 8 * 20 := by have : k.val < 20 := k.isLt; omega
  simp only [BitVec.getLsbD_extractLsb', BitVec.getLsbD_setWidth, hn, hk, decide_true, Bool.true_and]
  by_cases h0 : k.val = 0
  · simp [h0]
  · have habove : 8 ≤ 8 * k.val + n := by omega
    simp [h0, BitVec.getLsbD_of_ge c _ habove]

/-- R73: the outbound frame's vector is `zext_160(c)`. -/
theorem packFrame_encodeCommand (c : Code) : packFrame (encodeCommand c) = c.setWidth frameBits :=
  eq_of_slices_eq fun k => by
    rw [extractLsb'_packFrame, byteAt_encodeCommand, extractLsb'_setWidth_code]

/-- Settles O39, from the slices of a packed frame. -/
theorem frameVectorPacking : Obligations.FrameVectorPacking :=
  ⟨extractLsb'_packFrame, unpackFrame_packFrame, packFrame_unpackFrame, packFrame_encodeCommand⟩

/-! ### The step around the meanings -/

theorem decode_singleton_eq_ok_iff {c : Code} {i : Instr} : decode [c] = .ok (i, []) ↔ c = encodeCode i := by
  rw [← decodeCode_eq_ok_iff, decode_singleton]
  cases decodeCode c <;> simp

/-- A step in IDLE with a command presented is that command's meaning, the code taken and the wires used up. -/
theorem step_presented {s : State} {i : Instr} {rest : List Code} (hr : (wiresNow s).rst = false)
    (hv : (wiresNow s).cmdValid = true) (hp : s.phase = .idle) (hh : s.hostCmds = encodeCode i :: rest) :
    step s = exec i (takeCommand (nextCycle s)) := by
  rw [step_idle hr hp, if_pos hv]
  exact issueStep_legal hh

/-- A step in EXCHANGE with the transport presented is the meaning of the command in CMD, the wires used up. -/
theorem step_answered {s : State} {i : Instr} (hr : (wiresNow s).rst = false)
    (hv : (wiresNow s).xferValid = true) (hp : s.phase = .exchange) (hc : s.cmd = encodeCode i) :
    step s = exec i (nextCycle s) := by
  rw [step_exchange hr hp, if_pos hv]
  exact answerStep_legal hc

theorem takeCommand_nextCycle_of_hostCmds {s : State} {c : Code} {rest : List Code} (hh : s.hostCmds = c :: rest) :
    takeCommand (nextCycle s) = { s with schedule := s.schedule.tail, hostCmds := rest } := by
  simp only [takeCommand, nextCycle, hh, List.tail_cons]

/-- Settles O13, phase by phase. -/
theorem stepRunsTheDecodedCommand : Obligations.StepRunsTheDecodedCommand := by
  unfold Obligations.StepRunsTheDecodedCommand
  constructor
  · intro s c rest i hr hv hp hh _ hd
    obtain rfl := decode_singleton_eq_ok_iff.mp hd
    rw [step_presented hr hv hp hh, takeCommand_nextCycle_of_hostCmds hh]
  · intro s i hr hv hp _ hd
    exact step_answered hr hv hp (decode_singleton_eq_ok_iff.mp hd)

/-! ### The wire's constants -/

/-- The padding of the outbound frame is every offset but the code's (R6). -/
theorem isPadding_iff_ne_cmdOffset {k : Nat} (hk : k < frameLen) : isPadding k = true ↔ k ≠ cmdOffset := by
  simp only [frameLen] at hk
  simp only [isPadding, padFirst, padLast, cmdOffset, Bool.and_eq_true, decide_eq_true_eq]
  omega

/-- The combined reading is the longest payload (R7, R96). -/
theorem payloadLen_le_allLen (i : Instr) : payloadLen i ≤ allLen := by
  cases i <;> decide

/-- Settles O45: the identities by evaluation, the places by the laws of `isPadding`, `isIgnored` and `payloadLen`. -/
theorem wireConstantsAgree : Obligations.WireConstantsAgree :=
  ⟨rfl, rfl, rfl, by decide, rfl, rfl, fun _ hk => isPadding_iff_ne_cmdOffset hk,
    fun i k _ => isIgnored_eq_false_iff i k, fun i => Nat.add_le_add_left (payloadLen_le_allLen i) payloadOffset⟩

end Sys2Proof.Machine
end

section
/-! Proofs of the statements about the state of 10_state.md: the reset state (R33), who writes which element (R23 to
R28), the invariants of section 9 (R34), the typed result (R35) and the views STATUS and relay_on (R22, R27). -/

namespace Sys2Proof.Machine

/-! ### The spaces after an event -/

@[simp] theorem Memory.toFrame_ofFrame (f : Frame) : (Memory.ofFrame f).toFrame = f :=
  eq_of_byteAt_eq fun k => by simpa [byteAt, Memory.toFrame] using Memory.read_ofFrame f k

theorem encodeCommand_zero : encodeCommand 0x00 = Vector.replicate frameLen 0x00 := by decide

/-- The outbound frame of the code 0x00 lists no byte: what an empty TX space holds. -/
theorem Memory.ofFrame_encodeCommand_zero : Memory.ofFrame (encodeCommand 0x00) = [] := by decide

theorem resetEvent_txbuf_eq_nil (s : State) : (resetEvent s).txbuf = [] := by
  rw [resetEvent_txbuf, ← encodeCommand_zero, Memory.ofFrame_encodeCommand_zero]

/-! ### The Measurement Set and the typed result -/

theorem ms_eq_clearedMs_iff {s : State} :
    s.ms = clearedMs ↔ s.v = 0 ∧ s.i = 0 ∧ s.p = 0 ∧ s.relay = 0 := by
  simp [State.ms, clearedMs]

@[simp] theorem legalCode_encodeCode (i : Instr) : legalCode (encodeCode i) = true :=
  (legalCode_iff_encodeCode _).mpr ⟨i, rfl⟩

/-- R96: over a cleared Measurement Set a command's register writes give its row of the dispatcher's table. -/
theorem writesOf_clearedMs (i : Instr) (rx : Frame) : writesOf i rx clearedMs = decodeTable i rx := by
  cases i <;> rfl

/-- R35: the row of R96 carries the typed result, at the literal offsets of the rules. -/
theorem resultOf_decodeTable (i : Instr) (rx : Frame) :
    resultOf i (decodeTable i rx) = Stated.typedResult rx i := by
  cases i <;> rfl

/-! R96 read column by column: the rows that write each register, zero in the others. -/

theorem decodeTable_v (i : Instr) (rx : Frame) : (decodeTable i rx).v =
    if i = .readVoltage ∨ i = .readAll then f32At rx voltageAt else 0 := by
  cases i <;> rfl

theorem decodeTable_i (i : Instr) (rx : Frame) : (decodeTable i rx).i =
    if i = .readCurrent then f32At rx floatAt else if i = .readAll then f32At rx currentAt else 0 := by
  cases i <;> rfl

theorem decodeTable_p (i : Instr) (rx : Frame) : (decodeTable i rx).p =
    if i = .readPower then f32At rx floatAt else if i = .readAll then f32At rx powerAt else 0 := by
  cases i <;> rfl

theorem decodeTable_relay (i : Instr) (rx : Frame) : (decodeTable i rx).relay =
    if i = .readVoltage ∨ i = .readCurrent ∨ i = .readPower then 0
    else if i = .readAll then byteAt rx relayAt else byteAt rx flagFieldAt := by
  cases i <;> rfl

/-! ### The counts over a trace, event by event -/

@[simp] theorem acceptedIssues_nil : acceptedIssues [] = 0 := rfl
@[simp] theorem exchanges_nil : exchanges [] = 0 := rfl
@[simp] theorem answered_nil : answered [] = 0 := rfl
@[simp] theorem responses_nil : responses [] = 0 := rfl

@[simp] theorem acceptedIssues_cons (e : Event) (t : List Event) :
    acceptedIssues (e :: t) = acceptedIssues t + if e.isAccepted then 1 else 0 := List.countP_cons
@[simp] theorem exchanges_cons (e : Event) (t : List Event) :
    exchanges (e :: t) = exchanges t + if e.isXferReq then 1 else 0 := List.countP_cons
@[simp] theorem answered_cons (e : Event) (t : List Event) :
    answered (e :: t) = answered t + if e.isAnswer then 1 else 0 := List.countP_cons
@[simp] theorem responses_cons (e : Event) (t : List Event) :
    responses (e :: t) = responses t + if e.isRsp then 1 else 0 := List.countP_cons

/-! Which events answer an exchange, case by case (`Event.isAnswer` itself does not unfold under `simp`). -/

@[simp] theorem isAnswer_issue (c : Code) (o : IssueOutcome) : (Event.issue c o).isAnswer = false := rfl
@[simp] theorem isAnswer_xferReq (tx : Frame) : (Event.xferReq tx).isAnswer = false := rfl
@[simp] theorem isAnswer_xferDone (rx : Frame) : (Event.xferDone rx).isAnswer = true := rfl
@[simp] theorem isAnswer_xferFault : Event.xferFault.isAnswer = true := rfl
@[simp] theorem isAnswer_rsp (o : RspOutcome) : (Event.rsp o).isAnswer = false := rfl
@[simp] theorem isAnswer_reset : Event.reset.isAnswer = false := rfl

/-- What a trace says of PHASE and of abandoned exchanges, for a trace extended by any events. -/
theorem foldl_track_append (t u : List Event) :
    (t ++ u).foldl track (.idle, 0) = u.foldl track (tracePhase t, abandoned t) := by
  simp [tracePhase, abandoned]

@[simp] theorem tracePhase_append (t u : List Event) :
    tracePhase (t ++ u) = (u.foldl track (tracePhase t, abandoned t)).1 :=
  congrArg Prod.fst (foldl_track_append t u)

@[simp] theorem abandoned_append (t u : List Event) :
    abandoned (t ++ u) = (u.foldl track (tracePhase t, abandoned t)).2 :=
  congrArg Prod.snd (foldl_track_append t u)

/-! ### The invariants, event by event -/

/-- Using up the wires, a code or an answer writes no element and adds no event. -/
theorem Invariants.nextCycle {s : State} (h : Invariants s) : Invariants (nextCycle s) := { h with }

theorem Invariants.takeCommand {s : State} (h : Invariants s) : Invariants (takeCommand s) := { h with }

theorem Invariants.takeAnswer {s : State} (h : Invariants s) : Invariants (takeAnswer s) := { h with }

/-- `Reset` clears every element; if it abandons an exchange, `abandoned` counts it (R161). -/
theorem Invariants.resetEvent {s : State} (h : Invariants s) : Invariants (resetEvent s) where
  flagsExclusive := by simp
  busyCleared := by simp
  txIsFrame := by rw [resetEvent_txbuf, resetEvent_cmd, encodeCommand_zero]
  faultCleared := by simp
  doneDecoded := by simp
  cmdLegal := .inl rfl
  rxCanonical := Memory.ofFrame_wf _
  oneExchangeEach := by simp [h.oneExchangeEach, Event.isXferReq, Event.isAccepted]
  exchangesBalance := by
    cases hp : s.phase with
    | idle => simp [h.exchangesBalance, hp, h.phaseTraced, track, inFlight, Event.isXferReq]
    | exchange => simp +arith [h.exchangesBalance, hp, h.phaseTraced, track, inFlight, Event.isXferReq]
  phaseTraced := by simp [track]
  oneResponseEach := by simp [h.oneResponseEach, Event.isRsp]

theorem Invariants.rejectIssue {s : State} (h : Invariants s) (c : Code) : Invariants (rejectIssue c s) :=
  { h with
    oneExchangeEach := by simp [h.oneExchangeEach, Event.isXferReq, Event.isAccepted]
    exchangesBalance := by simp [h.exchangesBalance, track, Event.isXferReq]
    phaseTraced := by simp [h.phaseTraced, track]
    oneResponseEach := by simp [h.oneResponseEach, Event.isRsp] }

/-- R97: the clearing at an accepted `Issue` is what (ii) demands of a busy state. -/
theorem Invariants.acceptIssue {s : State} (h : Invariants s) (hp : s.phase = .idle) (i : Instr) :
    Invariants (acceptIssue (encodeCode i) s) where
  flagsExclusive := by simp
  busyCleared _ := ⟨rfl, rfl, rfl, rfl, legalCode_encodeCode i⟩
  txIsFrame := acceptIssue_txbuf _ _
  faultCleared := by simp
  doneDecoded := by simp
  cmdLegal := .inr (legalCode_encodeCode i)
  rxCanonical := Memory.ofFrame_wf _
  oneExchangeEach := by simp [h.oneExchangeEach, Event.isXferReq, Event.isAccepted]
  exchangesBalance := by simp +arith [h.exchangesBalance, hp, track, inFlight, Event.isXferReq]
  phaseTraced := by simp [track]
  oneResponseEach := by simp [h.oneResponseEach, Event.isRsp]

/-- R98: the command in flight completes into its row of R96, since R97 cleared the registers. -/
theorem Invariants.xferDone_ms {s : State} (h : Invariants s) (hp : s.phase = .exchange) (i : Instr) (rx : Frame) :
    (xferDone (writesOf i) rx s).ms = decodeTable i rx := by
  obtain ⟨-, -, hms, -, -⟩ := h.busyCleared hp
  rw [Machine.xferDone_ms, hms, writesOf_clearedMs]

theorem Invariants.xferDone {s : State} (h : Invariants s) (hp : s.phase = .exchange) {i : Instr}
    (hc : s.cmd = encodeCode i) (rx : Frame) : Invariants (xferDone (writesOf i) rx s) := by
  obtain ⟨-, hfault, -, -, -⟩ := h.busyCleared hp
  exact {
    flagsExclusive := by simp [hfault]
    busyCleared := by simp
    txIsFrame := h.txIsFrame
    faultCleared := by simp [hfault]
    doneDecoded := fun _ => ⟨i, by rw [xferDone_cmd, hc, decodeCode_encodeCode],
      by rw [h.xferDone_ms hp, xferDone_rxbuf, Memory.toFrame_ofFrame],
      by rw [xferDone_echo, xferDone_rxbuf]; exact (Memory.read_ofFrame rx echoAt).symm⟩
    cmdLegal := h.cmdLegal
    rxCanonical := by rw [xferDone_rxbuf]; exact Memory.ofFrame_wf rx
    oneExchangeEach := by simp [h.oneExchangeEach, Event.isXferReq, Event.isAccepted]
    exchangesBalance := by simp +arith [h.exchangesBalance, hp, track, inFlight, Event.isXferReq]
    phaseTraced := by simp [track]
    oneResponseEach := by simp [h.oneResponseEach, Event.isRsp] }

/-- R99 writes no register: (iv) holds because (ii) held during the exchange. -/
theorem Invariants.raiseTransferFault {s : State} (h : Invariants s) (hp : s.phase = .exchange) :
    Invariants (raiseTransferFault s) := by
  obtain ⟨hdone, -, hms, hecho, -⟩ := h.busyCleared hp
  exact {
    flagsExclusive := by simp [hdone]
    busyCleared := by simp
    txIsFrame := h.txIsFrame
    faultCleared := fun _ => ⟨hms, hecho⟩
    doneDecoded := by simp [hdone]
    cmdLegal := h.cmdLegal
    rxCanonical := Memory.ofFrame_wf _
    oneExchangeEach := by simp [h.oneExchangeEach, Event.isXferReq, Event.isAccepted]
    exchangesBalance := by simp +arith [h.exchangesBalance, hp, track, inFlight, Event.isXferReq]
    phaseTraced := by simp [track]
    oneResponseEach := by simp [h.oneResponseEach, Event.isRsp] }

theorem Invariants.of_stepTo {s t : State} (h : Invariants s) (hst : StepTo s t) : Invariants t := by
  cases hst with
  | reset => exact h.nextCycle.resetEvent
  | nothing => exact h.nextCycle
  | rejected c => exact h.nextCycle.takeCommand.rejectIssue c
  | accepted i _ _ hp => exact h.nextCycle.takeCommand.acceptIssue hp i
  | completed i rx _ _ hp hc => exact h.nextCycle.takeAnswer.xferDone hp hc rx
  | faulted _ _ hp => exact h.nextCycle.takeAnswer.raiseTransferFault hp

/-- Settles O26, by the cases of a step: one lemma per event. -/
theorem everyStepKeepsTheInvariants : Obligations.EveryStepKeepsTheInvariants :=
  fun _ _ h hst => h.of_stepTo (stepTo_of_step hst)

/-! ### Who writes which element -/

/-- Settles O20, event by event. -/
theorem writersOfTheControlState : Obligations.WritersOfTheControlState := by
  unfold Obligations.WritersOfTheControlState
  intro s t hst
  cases stepTo_of_step hst with
  | reset => exact ⟨_, rfl, .inr (.inr (.inr (.inl ⟨rfl, rfl, rfl, rfl, rfl⟩)))⟩
  | nothing => exact ⟨[], (List.append_nil _).symm, .inr (.inr (.inr (.inr ⟨.inl rfl, rfl, rfl, rfl, rfl⟩)))⟩
  | rejected c => exact ⟨_, rfl, .inr (.inr (.inr (.inr ⟨.inr ⟨c, rfl⟩, rfl, rfl, rfl, rfl⟩)))⟩
  | accepted i _ _ hp => exact ⟨_, rfl, .inl ⟨encodeCode i, rfl, hp, rfl, rfl, rfl, rfl⟩⟩
  | completed _ rx _ _ hp => exact ⟨_, rfl, .inr (.inl ⟨rx, rfl, hp, rfl, rfl, rfl, rfl⟩)⟩
  | faulted _ _ hp => exact ⟨_, rfl, .inr (.inr (.inl ⟨rfl, hp, rfl, rfl, rfl, rfl⟩))⟩

/-- Settles O21, event by event; TX after an `Issue` and RX after `XferDone` hold a frame, read back by
`Memory.read_ofFrame`. -/
theorem writersOfTheDataState : Obligations.WritersOfTheDataState := by
  unfold Obligations.WritersOfTheDataState
  intro s t hst
  cases stepTo_of_step hst with
  | reset =>
    have htx (a : Nat) : (resetEvent (nextCycle s)).txbuf.read a = 0 := by rw [resetEvent_txbuf_eq_nil]; rfl
    exact ⟨_, rfl, .inr (.inr (.inr (.inl ⟨rfl, rfl, rfl, htx⟩)))⟩
  | nothing =>
    exact ⟨[], (List.append_nil _).symm,
      .inr (.inr (.inr (.inr ⟨.inl rfl, rfl, rfl, fun _ => rfl, fun _ => rfl⟩)))⟩
  | rejected c =>
    exact ⟨_, rfl, .inr (.inr (.inr (.inr ⟨.inr ⟨c, rfl⟩, rfl, rfl, fun _ => rfl, fun _ => rfl⟩)))⟩
  | accepted i =>
    refine ⟨_, rfl, .inl ⟨encodeCode i, rfl, rfl, rfl, fun k => ?_⟩⟩
    rw [acceptIssue_txbuf]
    exact Memory.read_ofFrame _ k
  | completed i rx =>
    refine ⟨_, rfl, .inr (.inl ⟨rx, rfl, xferDone_echo _ _ _, fun _ => rfl, fun k => ?_⟩)⟩
    rw [xferDone_rxbuf]
    exact Memory.read_ofFrame rx k
  | faulted => exact ⟨_, rfl, .inr (.inr (.inl ⟨rfl, rfl, rfl, fun _ => rfl⟩))⟩

/-! ### Reachable states -/

/-- What every step keeps holds of every state a run reaches. -/
theorem stepN_keeps {P : State → Prop} (hkeep : ∀ s t, P s → step s = .next t → P t) {n : Nat} {s t : State}
    (hs : P s) (hrun : stepN n s = .next t) : P t := by
  induction n generalizing s with
  | zero => cases hrun; exact hs
  | succ n ih =>
    rw [stepN] at hrun
    cases hst : step s with
    | next u => rw [hst] at hrun; exact ih (hkeep s u hs hst) hrun
    | fault f => rw [hst] at hrun; cases hrun
    | refused r => rw [hst] at hrun; cases hrun

/-- The base case: nothing has happened, every element is zero (R33). -/
theorem invariants_resetWith (cmds : List Code) (answers : List Answer) (schedule : List Wires) :
    Invariants (resetWith cmds answers schedule) where
  flagsExclusive h := nomatch h.1
  busyCleared h := nomatch h
  txIsFrame := Memory.ofFrame_encodeCommand_zero.symm
  faultCleared h := nomatch h
  doneDecoded h := nomatch h
  cmdLegal := .inl rfl
  rxCanonical := rfl
  oneExchangeEach := rfl
  exchangesBalance := rfl
  phaseTraced := rfl
  oneResponseEach := rfl

/-- R34 for every state a run from `Reset` reaches. -/
theorem invariants_of_run {cmds : List Code} {answers : List Answer} {schedule : List Wires} {n : Nat} {t : State}
    (hrun : stepN n (resetWith cmds answers schedule) = .next t) : Invariants t :=
  stepN_keeps (fun _ _ h hst => h.of_stepTo (stepTo_of_step hst)) (invariants_resetWith cmds answers schedule) hrun

/-- Settles O27: the invariants of the state reached, read as R34 writes them. -/
theorem reachableStatesMeetR34 : Obligations.ReachableStatesMeetR34 := by
  unfold Obligations.ReachableStatesMeetR34
  intro cmds answers schedule n t hrun
  have h := invariants_of_run hrun
  refine ⟨h.flagsExclusive, fun hp => ?busy, fun k => ?tx, fun hf => ?fault, fun hd => ?done, h.cmdLegal,
    h.oneExchangeEach, fun hab => ?balance⟩
  case busy =>
    obtain ⟨hdone, hfault, hms, hecho, hcmd⟩ := h.busyCleared hp
    obtain ⟨hv, hi, hpw, hrelay⟩ := ms_eq_clearedMs_iff.mp hms
    exact ⟨hdone, hfault, hv, hi, hpw, hrelay, hecho, hcmd⟩
  case tx =>
    rw [h.txIsFrame]
    exact Memory.read_ofFrame _ k
  case fault =>
    obtain ⟨hms, hecho⟩ := h.faultCleared hf
    obtain ⟨hv, hi, hpw, hrelay⟩ := ms_eq_clearedMs_iff.mp hms
    exact ⟨hv, hi, hpw, hrelay, hecho⟩
  case done =>
    obtain ⟨i, hi, hms, hecho⟩ := h.doneDecoded hd
    exact ⟨i, eq_encodeCode_of_decodeCode hi, hms, hecho⟩
  case balance =>
    have hbal := h.exchangesBalance
    omega

/-! ### The typed result -/

/-- Settles O34: a completion leaves the command's row of R96, a fault the cleared registers of the exchange. -/
theorem typedResultAtResponse : Obligations.TypedResultAtResponse := by
  unfold Obligations.TypedResultAtResponse
  intro i s h hp hc
  constructor
  · intro rx rest ha
    have hms := h.takeAnswer.xferDone_ms hp i rx
    refine ⟨_, (exec_eq_runCommand i s).trans (runCommand_done hp hc ha), ?_, fun hv hall => ?_, fun hi hall => ?_,
      fun hpw hall => ?_, fun hfloat => ?_⟩
    · rw [hms, resultOf_decodeTable]
    · calc _ = (decodeTable i rx).v := congrArg MeasurementSet.v hms
        _ = 0 := by simp [decodeTable_v, hv, hall]
    · calc _ = (decodeTable i rx).i := congrArg MeasurementSet.i hms
        _ = 0 := by simp [decodeTable_i, hi, hall]
    · calc _ = (decodeTable i rx).p := congrArg MeasurementSet.p hms
        _ = 0 := by simp [decodeTable_p, hpw, hall]
    · calc _ = (decodeTable i rx).relay := congrArg MeasurementSet.relay hms
        _ = 0 := by simp [decodeTable_relay, hfloat]
  · intro rest ha
    obtain ⟨-, -, hms, -, -⟩ := h.busyCleared hp
    exact ⟨_, (exec_eq_runCommand i s).trans (runCommand_fault hp hc ha), hms⟩

/-! ### The reset state and the host's views -/

/-- Settles O1, element by element. -/
theorem resetStateIsAllZero : Obligations.ResetStateIsAllZero :=
  ⟨rfl, rfl, rfl, rfl, rfl, rfl, rfl, rfl, rfl, fun _ => rfl, Memory.ofFrame_encodeCommand_zero.symm, rfl, rfl⟩

theorem busy_iff {s : State} : busy s = true ↔ s.phase = .exchange := by
  simp [busy]

/-- R27: STATUS bit by bit, nothing above bit 2. -/
theorem getLsbD_status (s : State) (k : Nat) : (status s).getLsbD k =
    if k = 0 then busy s else if k = 1 then s.doneFlag else if k = 2 then s.faultFlag else false := by
  simp only [status, BitVec.getLsbD_append, BitVec.getLsbD_ofBool]
  rcases k with _ | _ | _ | k <;> simp

/-- Settles O47: bits 0, 1 and 2 of the concatenation. -/
theorem statusBits : Obligations.StatusBits := fun s =>
  ⟨getLsbD_status s 0, getLsbD_status s 1, getLsbD_status s 2, busy_iff⟩

theorem on_iff {b : Byte} : on b = true ↔ b ≠ 0x00 := by
  simp [on]

/-- Settles O48: `relay_on` is the flag reading of RELAY. -/
theorem relayOnView : Obligations.RelayOnView := fun _ => on_iff

end Sys2Proof.Machine
end

section
/-! Proofs of the statements about the two spaces of 20_memory.md: bounded access (R50), whole frames (R58), the
outbound frame (R52), the ignored inbound bytes (R53, R54), no offset outside a frame (R57), and the order of the
outbound frames (R62). -/

namespace Sys2Proof.Machine

/-! ### The order of the outbound frames -/

/-- From `s` to `t` the host's sequence lost a front part, and the frames of that part's legal codes were handed to
the transport, in order (R62). -/
def FramesFollow (s t : State) : Prop :=
  ∃ presented, s.hostCmds = presented ++ t.hostCmds ∧
    requestedFrames t.trace = requestedFrames s.trace ++ (presented.filter legalCode).map encodeCommand

theorem FramesFollow.refl (s : State) : FramesFollow s s := ⟨[], rfl, by simp⟩

theorem FramesFollow.trans {s t u : State} (hst : FramesFollow s t) (htu : FramesFollow t u) : FramesFollow s u := by
  obtain ⟨p, hcmds, hframes⟩ := hst
  obtain ⟨q, hcmds', hframes'⟩ := htu
  exact ⟨p ++ q, by simp [hcmds, hcmds'], by simp [hframes, hframes']⟩

/-- An event that takes no code and requests no exchange. -/
theorem FramesFollow.of_unchanged {s t : State} (hcmds : t.hostCmds = s.hostCmds)
    (hframes : requestedFrames t.trace = requestedFrames s.trace) : FramesFollow s t :=
  ⟨[], hcmds.symm, by simp [hframes]⟩

/-- An event that takes the code `c`. -/
theorem FramesFollow.of_taken {s t : State} {c : Code} (hcmds : s.hostCmds = c :: t.hostCmds)
    (hframes : requestedFrames t.trace =
      requestedFrames s.trace ++ if legalCode c then [encodeCommand c] else []) : FramesFollow s t := by
  refine ⟨[c], hcmds, ?_⟩
  cases hc : legalCode c <;> simp [hframes, hc]

/-- The events of an accepted `Issue` request one frame (R97). -/
theorem requestedFrames_accepted (c : Code) (tx : Frame) :
    requestedFrames [.issue c .accepted, .xferReq tx] = [tx] := rfl

/-- Only an accepted `Issue` requests an exchange, and it takes the code whose frame it hands over. -/
theorem FramesFollow.of_stepTo {s t : State} (hst : StepTo s t) : FramesFollow s t := by
  cases hst with
  | reset => exact .of_unchanged rfl (by simp [requestedFrames, Event.frame?])
  | nothing => exact .of_unchanged rfl rfl
  | rejected c rest _ _ hh hc =>
    exact .of_taken (c := c) (by simp [hh]) (by simp [hc, requestedFrames, Event.frame?])
  | accepted i rest _ _ hh =>
    exact .of_taken (c := encodeCode i) (by simp [hh]) (by simp [requestedFrames_accepted])
  | completed => exact .of_unchanged rfl (by simp [requestedFrames, Event.frame?])
  | faulted => exact .of_unchanged rfl (by simp [requestedFrames, Event.frame?])

/-- Settles O32: a step prolongs the run by what it takes from the host. -/
theorem framesGoOutInIssueOrder : Obligations.FramesGoOutInIssueOrder := fun _ s _ hrun =>
  stepN_keeps (P := FramesFollow s) (fun _ _ hsu hst => hsu.trans (.of_stepTo (stepTo_of_step hst)))
    (FramesFollow.refl s) hrun

/-! ### Bounded access -/

/-- Bytes written at consecutive offsets are read back in order. -/
theorem Memory.map_read_writeBytes {m : Memory} (hm : m.wf = true) (k : Nat) (bs : List Byte)
    (h : k + bs.length ≤ frameLen) :
    ((List.range bs.length).map fun j => (m.writeBytes k bs).read (k + j)) = bs := by
  refine List.ext_getElem (by simp) fun j _ hj => ?_
  simp [Memory.read_writeBytes hm k bs h, hj]

/-- What was stored is loaded back (R50). -/
theorem load_of_store {sp : Space} {m m' : Memory} {k : Nat} {bs : List Byte} (hm : m.wf = true)
    (h : store sp m k bs = .ok m') : load sp m' k bs.length = .ok bs := by
  obtain ⟨hk, rfl⟩ := store_ok_iff.mp h
  exact load_ok_iff.mpr ⟨hk, (Memory.map_read_writeBytes hm k bs hk).symm⟩

/-- The frame of a store: every byte outside the written offsets. -/
theorem read_of_store_outside {sp : Space} {m m' : Memory} {k : Nat} {bs : List Byte} (hm : m.wf = true)
    (h : store sp m k bs = .ok m') {a : Nat} (ha : a < k ∨ k + bs.length ≤ a) : m'.read a = m.read a := by
  obtain ⟨hk, rfl⟩ := store_ok_iff.mp h
  rw [Memory.read_writeBytes hm k bs hk, if_neg (by omega)]

/-- Settles O44: the bound from what `load` and `store` answer, then store against load, frame and canonical form. -/
theorem boundedAccessToTheSpaces : Obligations.BoundedAccessToTheSpaces :=
  ⟨fun _ _ _ _ => by simp [load_ok_iff], fun _ _ _ _ => by simp [store_ok_iff],
    fun _ _ _ _ _ hm h => ⟨load_of_store hm h, fun _ ha => read_of_store_outside hm h ha, store_wf hm h⟩⟩

/-! ### Whole frames -/

theorem Memory.byteAt_toFrame (m : Memory) (k : Fin frameLen) : byteAt m.toFrame k = m.read k.val := by
  simp [byteAt, Memory.toFrame]

/-- The canonical form is unique: it lists what the frame does not leave zero, and nothing outside it. -/
theorem Memory.ofFrame_toFrame {m : Memory} (hm : m.wf = true) : Memory.ofFrame m.toFrame = m := by
  refine Memory.ext_wf (Memory.ofFrame_wf _) hm fun a => ?_
  by_cases ha : a < frameLen
  · exact (Memory.read_ofFrame _ ⟨a, ha⟩).trans (Memory.byteAt_toFrame m ⟨a, ha⟩)
  · rw [Memory.read_ofFrame_outside _ (Nat.le_of_not_lt ha), Memory.read_outside hm (Nat.le_of_not_lt ha)]

/-- Settles O46, one direction of the round trip each. -/
theorem spacesHoldFrames : Obligations.SpacesHoldFrames :=
  ⟨Memory.toFrame_ofFrame, fun _ hm => Memory.ofFrame_toFrame hm⟩

/-! ### The outbound frame -/

/-- R52 at every address: the code at its offset, zero in the padding and outside the space. -/
theorem Memory.read_ofFrame_encodeCommand (c : Code) (a : Nat) :
    (Memory.ofFrame (encodeCommand c)).read a = if a = cmdOffset then c else 0x00 := by
  by_cases ha : a < frameLen
  · exact (Memory.read_ofFrame _ ⟨a, ha⟩).trans (byteAt_encodeCommand c ⟨a, ha⟩)
  · have hne : a ≠ cmdOffset := by simp only [frameLen, cmdOffset] at ha ⊢; omega
    rw [Memory.read_ofFrame_outside _ (Nat.le_of_not_lt ha), if_neg hne, unlistedByte]

/-- Settles O22: TX holds the command's outbound frame. -/
theorem issueStoresOnlyTheOutboundFrame : Obligations.IssueStoresOnlyTheOutboundFrame := by
  unfold Obligations.IssueStoresOnlyTheOutboundFrame
  intro i s hp
  refine ⟨_, (exec_eq_runCommand i s).trans (runCommand_idle hp), ?code, fun a ha => ?padding, ?canonical,
    rfl, rfl, rfl⟩
  case code => rw [acceptIssue_txbuf, Memory.read_ofFrame_encodeCommand, if_pos rfl]
  case padding => rw [acceptIssue_txbuf, Memory.read_ofFrame_encodeCommand, if_neg ha]
  case canonical => rw [acceptIssue_txbuf]; exact Memory.ofFrame_wf _

/-! ### The ignored inbound bytes -/

section AgreeOnRead

variable {n : Nat} {rx rx' : Frame}

theorem agreeOnRead_echoOf (h : Stated.AgreeOnRead n rx rx') : echoOf rx = echoOf rx' :=
  h echoAt (.inl rfl)

theorem agreeOnRead_flagAt (h : Stated.AgreeOnRead n rx rx') {k : Fin frameLen} (hlo : payloadOffset ≤ k.val)
    (hhi : k.val + flagLen ≤ payloadOffset + n) : flagAt rx k = flagAt rx' k :=
  h k (.inr ⟨hlo, hhi⟩)

theorem agreeOnRead_f32At (h : Stated.AgreeOnRead n rx rx') {k : FieldOffset} (hlo : payloadOffset ≤ k.val)
    (hhi : k.val + floatLen ≤ payloadOffset + n) : f32At rx k = f32At rx' k := by
  have hbyte (j : Fin floatLen) : byteAt rx (fieldOffset k j) = byteAt rx' (fieldOffset k j) := by
    have hj := j.isLt
    refine h _ (.inr ?_)
    simp only [fieldOffset, floatLen, payloadOffset] at hj hlo hhi ⊢
    omega
  simp only [f32At, hbyte]

end AgreeOnRead

/-- R53: a command's register writes read its payload bytes only. -/
theorem writesOf_eq_of_agreeOnRead {i : Instr} {rx rx' : Frame} (h : Stated.AgreeOnRead (payloadLen i) rx rx')
    (m : MeasurementSet) : writesOf i rx m = writesOf i rx' m := by
  cases i with
  | readVoltage | readCurrent | readPower =>
    have hfloat : payloadFloat rx = payloadFloat rx' := agreeOnRead_f32At h (by decide) (by decide)
    simp only [writesOf, writeVoltage, writeCurrent, writePower, hfloat]
  | readRelay | setRelayOn | setRelayOff =>
    have hflag : payloadFlag rx = payloadFlag rx' := agreeOnRead_flagAt h (by decide) (by decide)
    simp only [writesOf, writeRelay, writeRelayOn, writeRelayOff, hflag]
  | readAll =>
    have hv : f32At rx voltageAt = f32At rx' voltageAt := agreeOnRead_f32At h (by decide) (by decide)
    have hi : f32At rx currentAt = f32At rx' currentAt := agreeOnRead_f32At h (by decide) (by decide)
    have hp : f32At rx powerAt = f32At rx' powerAt := agreeOnRead_f32At h (by decide) (by decide)
    have hrelay : flagAt rx relayAt = flagAt rx' relayAt := agreeOnRead_flagAt h (by decide) (by decide)
    simp only [writesOf, writeAll, decodeMs, hv, hi, hp, hrelay]

/-- What a completion takes from the frame besides RXBUF and the record in the trace: ECHO and the register writes. -/
theorem xferDone_eq_but_rxbuf_trace {wr : Frame → MeasurementSet → MeasurementSet} {rx rx' : Frame} {s : State}
    (hecho : echoOf rx = echoOf rx') (hwr : wr rx s.ms = wr rx' s.ms) :
    { xferDone wr rx' s with rxbuf := (xferDone wr rx s).rxbuf, trace := (xferDone wr rx s).trace } =
      xferDone wr rx s := by
  simp only [xferDone, hecho, hwr]

/-- The command in flight, with `rx` as the transport's next answer, completes with it. -/
theorem exec_answered {i : Instr} {s : State} (hp : s.phase = .exchange) (hc : s.cmd = encodeCode i) (rx : Frame)
    (rest : List Answer) : exec i { s with answers := .done rx :: rest } =
      .next (xferDone (writesOf i) rx { s with answers := rest }) :=
  (exec_eq_runCommand i _).trans (runCommand_done hp hc rfl)

/-- Settles O24: a completion reads ECHO's byte and the payload bytes, on which the frames agree. -/
theorem ignoredBytesNeverMatter : Obligations.IgnoredBytesNeverMatter := by
  unfold Obligations.IgnoredBytesNeverMatter
  intro i s rx rx' rest hp hc hagree
  refine ⟨_, _, exec_answered hp hc rx rest, exec_answered hp hc rx' rest,
    xferDone_eq_but_rxbuf_trace (agreeOnRead_echoOf hagree) (writesOf_eq_of_agreeOnRead hagree _), ?_⟩
  simp [emitted, Event.isXferReq, Event.isRsp]

/-! ### No step faults -/

/-- Settles O29: a step answers a next state or refuses. -/
theorem noStepFaults : Obligations.NoStepFaults := by
  unfold Obligations.NoStepFaults
  intro s f hfault
  rcases step_cases s with ⟨t, hnext, -⟩ | ⟨hrefused, -⟩
  · rw [hnext] at hfault; cases hfault
  · rw [hrefused] at hfault; cases hfault

end Sys2Proof.Machine
end

section
/-! Proofs of the statements about the encoding of 30_encoding.md: codes and sequences of commands (R70 to R72, R81),
the words of the command table (R71), and the diagnostic label (R82). -/

namespace Sys2Proof.Machine

/-! ### Single commands and sequences -/

/-- R70: a command is one byte, whatever follows it. -/
@[simp] theorem decode_encode_append (i : Instr) (rest : List Byte) : decode (encode i ++ rest) = .ok (i, rest) := by
  simp only [encode, List.singleton_append, decode, decodeCode_encodeCode]

/-- A sequence decodes exactly if its first byte is a command's code and what follows decodes. -/
theorem decodeAll_cons_eq_ok_iff {c : Byte} {rest : List Byte} {is : List Instr} :
    decodeAll (c :: rest) = .ok is ↔
      ∃ i js, c = encodeCode i ∧ decodeAll rest = .ok js ∧ is = i :: js := by
  simp only [← decodeCode_eq_ok_iff, decodeAll]
  cases decodeCode c with
  | error e => simp
  | ok i => cases decodeAll rest <;> simp [eq_comm]

theorem decodeAll_encodeAll (is : List Instr) : decodeAll (encodeAll is) = .ok is := by
  induction is with
  | nil => rfl
  | cons i is ih => exact decodeAll_cons_eq_ok_iff.mpr ⟨i, is, rfl, ih, rfl⟩

/-- The decoder accepts encodings only: no two byte sequences stand for the same commands. -/
theorem encodeAll_of_decodeAll {bs : List Byte} {is : List Instr} (h : decodeAll bs = .ok is) :
    encodeAll is = bs := by
  induction bs generalizing is with
  | nil => cases h; rfl
  | cons c rest ih =>
    obtain ⟨i, js, rfl, hjs, rfl⟩ := decodeAll_cons_eq_ok_iff.mp h
    exact congrArg (encodeCode i :: ·) (ih hjs)

/-- Settles O35: the sequences by induction, each byte by the round trip of its code. -/
theorem decodeAndEncodeAgree : Obligations.DecodeAndEncodeAgree :=
  ⟨fun i rest _ => decode_encode_append i rest, decodeAll_encodeAll, fun _ _ => encodeAll_of_decodeAll⟩

/-! ### Legal and reserved codes -/

/-- R71's list of the legal codes. -/
theorem legalCode_iff_mem (c : Code) :
    legalCode c = true ↔ c ∈ [(0x01 : Code), 0x02, 0x03, 0x04, 0x05, 0x06, 0x07] := by
  constructor
  · intro h
    obtain ⟨i, rfl⟩ := (legalCode_iff_encodeCode c).mp h
    cases i <;> decide
  · have hlegal : ∀ d ∈ [(0x01 : Code), 0x02, 0x03, 0x04, 0x05, 0x06, 0x07], legalCode d = true := by decide
    exact hlegal c

theorem toNat_lt_of_legalCode {c : Code} (h : legalCode c = true) : c.toNat < 8 := by
  obtain ⟨i, rfl⟩ := (legalCode_iff_encodeCode c).mp h
  cases i <;> decide

/-- The 248 values from 8 up set a bit of 7:3, so they are reserved. -/
theorem legalCode_ofNat_add_eight {k : Nat} (hk : k < 248) : legalCode (BitVec.ofNat 8 (8 + k)) = false := by
  by_contra h
  have hlt := toNat_lt_of_legalCode (Bool.eq_true_of_not_eq_false h)
  have hmod : (8 + k) % 2 ^ codeWidth = 8 + k := Nat.mod_eq_of_lt (show 8 + k < 256 by omega)
  rw [BitVec.toNat_ofNat, hmod] at hlt
  omega

/-- R72's count: 0x00 below 8, and all the 248 values from 8 up. -/
theorem length_reserved_codes :
    ((List.range 256).filter fun k => !legalCode (BitVec.ofNat 8 k)).length = 249 := by
  have hlow : ((List.range 8).filter fun k => !legalCode (BitVec.ofNat 8 k)) = [0] := by decide
  have hhigh : (((List.range 248).map (8 + ·)).filter fun k => !legalCode (BitVec.ofNat 8 k)) =
      (List.range 248).map (8 + ·) := by
    rw [List.filter_eq_self, List.forall_mem_map]
    intro k hk
    rw [legalCode_ofNat_add_eight (List.mem_range.mp hk), Bool.not_false]
  rw [show 256 = 8 + 248 from rfl, List.range_add, List.filter_append, hlow, hhigh, List.length_append,
    List.length_map, List.length_range, List.length_singleton]

/-- Settles O36, from what the decoder accepts. -/
theorem sevenLegalCodes : Obligations.SevenLegalCodes :=
  ⟨legalCode_iff_mem, fun _ _ => decodeCode_eq_ok_iff, fun _ => decodeCode_of_not_legal, length_reserved_codes⟩

/-! ### The words of the command table -/

theorem decode_reserved {c : Code} (h : legalCode c = false) (rest : List Byte) :
    decode (c :: rest) = .error (.reservedCode c) := by
  simp only [decode, decodeCode_of_not_legal h]

/-- An 8-bit table word lays out one byte, the word itself. -/
theorem tableBytes_eight (w : Nat) : tableBytes 8 w = [BitVec.ofNat 8 w] := by
  have hbyte : byteOfNat (w % 2 ^ 8) 0 = BitVec.ofNat 8 w := by
    apply BitVec.eq_of_toNat_eq
    simp [byteOfNat]
  exact congrArg ([·]) hbyte

/-- The table's numbering of an 8-bit word is the command code's. -/
theorem decodeTableWord_eight (w : Nat) :
    decodeTableWord 8 w = (decodeCode (BitVec.ofNat 8 w)).toOption := by
  rw [decodeTableWord, tableBytes_eight, decode_singleton]
  cases decodeCode (BitVec.ofNat 8 w) <;> rfl

/-- Settles O37: each row's word is its command's code, and 0x81 is reserved. -/
theorem tableWordsDecode : Obligations.TableWordsDecode := by
  have hreserved : legalCode 0x81 = false := rfl
  refine ⟨decode_encode_append .readVoltage [], decode_encode_append .readCurrent [],
    decode_encode_append .readPower [], decode_encode_append .readRelay [], decode_encode_append .readAll [],
    decode_encode_append .setRelayOn [], decode_encode_append .setRelayOff [], decode_reserved hreserved [], ?_, ?_⟩
  · exact (decodeTableWord_eight 5).trans (congrArg Except.toOption (decodeCode_encodeCode .readAll))
  · exact (decodeTableWord_eight 0x81).trans (congrArg Except.toOption (decodeCode_of_not_legal hreserved))

/-! ### The diagnostic label -/

@[simp] theorem label_encodeCode (i : Instr) : label (encodeCode i) = mnemonic i := by
  simp only [label, decodeCode_encodeCode]

theorem label_reserved {c : Code} (h : legalCode c = false) : label c = unknownLabel := by
  simp only [label, decodeCode_of_not_legal h]

/-- Settles O49: a command's code is shown as its mnemonic, a reserved one as the sentinel. -/
theorem labelNamesCodes : Obligations.LabelNamesCodes :=
  ⟨label_encodeCode .readVoltage, label_encodeCode .readCurrent, label_encodeCode .readPower,
    label_encodeCode .readRelay, label_encodeCode .readAll, label_encodeCode .setRelayOn,
    label_encodeCode .setRelayOff, fun _ => label_reserved⟩

end Sys2Proof.Machine
end

section
/-! Proofs of the statements about the frame codec of 40_frame_codec.md: the outbound frame (R90), the payload locator
(R91), the float field (R92), the combined reading (R95), the frame of a completion (R96, R98), the atomic step (R100),
and one exchange per accepted `Issue` (R102). -/

namespace Sys2Proof.Machine

/-! ### The events of a step -/

/-- Settles O19, event by event. -/
theorem oneExchangePerAcceptedIssue : Obligations.OneExchangePerAcceptedIssue := by
  unfold Obligations.OneExchangePerAcceptedIssue
  intro s t hst
  cases stepTo_of_step hst with
  | reset => exact ⟨_, rfl, .inr (.inr (.inr (.inr (.inr rfl)))), rfl⟩
  | nothing => exact ⟨[], (List.append_nil _).symm, .inl rfl, rfl⟩
  | rejected c => exact ⟨_, rfl, .inr (.inl ⟨c, rfl⟩), rfl⟩
  | accepted i => exact ⟨_, rfl, .inr (.inr (.inl ⟨encodeCode i, rfl⟩)), rfl⟩
  | completed i rx => exact ⟨_, rfl, .inr (.inr (.inr (.inl ⟨rx, rfl⟩))), rfl⟩
  | faulted => exact ⟨_, rfl, .inr (.inr (.inr (.inr (.inl rfl)))), rfl⟩

/-! ### The outbound frame -/

/-- `tx[0]` recovers the code (R90). -/
theorem encodeCommand_injective {c c' : Code} (h : encodeCommand c = encodeCommand c') : c = c' := by
  have hcode := congrArg (byteAt · ⟨cmdOffset, by decide⟩) h
  simpa only [byteAt_encodeCommand, if_true] using hcode

theorem mem_requestedFrames {tx : Frame} {t : List Event} (h : .xferReq tx ∈ t) : tx ∈ requestedFrames t :=
  List.mem_filterMap.mpr ⟨_, h, rfl⟩

/-- The frames a step hands over are those of the legal codes it takes (R62). -/
theorem requested_frame_legal {s t : State} {tx : Frame} (hst : step s = .next t)
    (htx : .xferReq tx ∈ t.trace.drop s.trace.length) : ∃ c, legalCode c = true ∧ tx = encodeCommand c := by
  obtain ⟨new, htrace, -, -⟩ := oneExchangePerAcceptedIssue s t hst
  obtain ⟨presented, -, hframes⟩ := FramesFollow.of_stepTo (stepTo_of_step hst)
  rw [htrace, List.drop_left] at htx
  rw [htrace, requestedFrames_append, List.append_cancel_left_eq] at hframes
  have hmem := mem_requestedFrames htx
  rw [hframes, List.mem_map] at hmem
  obtain ⟨c, hc, rfl⟩ := hmem
  exact ⟨c, List.of_mem_filter hc, rfl⟩

/-- Settles O38: the bytes by the law of `encodeCommand`, the legal codes from the order of the frames. -/
theorem encodeCommandFrame : Obligations.EncodeCommandFrame :=
  ⟨byteAt_encodeCommand, fun _ _ => encodeCommand_injective, fun _ _ _ => requested_frame_legal⟩

/-! ### The payload locator -/

theorem payload_fits {n : Nat} (hn : n ≤ payloadMax) : payloadOffset + n ≤ frameLen :=
  Nat.add_le_add_left hn payloadOffset

theorem length_payload_slice (rx : Frame) {n : Nat} (hn : n ≤ payloadMax) :
    ((rx.toList.drop payloadOffset).take n).length = n := by
  rw [List.length_take, List.length_drop, Vector.length_toList]
  exact min_eq_left hn

/-- R91 on its domain: the payload is a slice of the frame. -/
theorem payload_eq_slice (rx : Frame) {n : Nat} (hn : n ≤ payloadMax) :
    payload rx n = .ok ((rx.toList.drop payloadOffset).take n) := by
  have hfits := payload_fits hn
  refine load_ok_iff.mpr ⟨hfits, List.ext_getElem (by simp [length_payload_slice rx hn]) fun j hj _ => ?_⟩
  rw [length_payload_slice rx hn] at hj
  simpa using (Memory.read_ofFrame rx ⟨payloadOffset + j, by omega⟩).symm

/-- Settles O40; the longest payload is the combined reading's. -/
theorem payloadLocator : Obligations.PayloadLocator :=
  ⟨fun rx _ hn => payload_eq_slice rx hn, fun i => (payloadLen_le_allLen i).trans (by decide)⟩

/-! ### The float field -/

/-- R92, R55: byte `j` of the pattern is the frame's byte at the field's offset `j`. -/
theorem extractLsb'_f32At (rx : Frame) (k : FieldOffset) (j : Fin floatLen) :
    (f32At rx k).extractLsb' (8 * j.val) 8 = byteAt rx (fieldOffset k j) := by
  obtain ⟨h0, h1, h2, h3⟩ := extractLsb'_le32 (byteAt rx (fieldOffset k 0)) (byteAt rx (fieldOffset k 1))
    (byteAt rx (fieldOffset k 2)) (byteAt rx (fieldOffset k 3))
  match j with
  | 0 => exact h0
  | 1 => exact h1
  | 2 => exact h2
  | 3 => exact h3

/-- The byte slices of a vector of whole bytes determine it. -/
theorem eq_of_byteSlices_eq {n : Nat} {x y : BitVec (8 * n)}
    (h : ∀ j : Fin n, x.extractLsb' (8 * j.val) 8 = y.extractLsb' (8 * j.val) 8) : x = y := by
  apply BitVec.eq_of_getLsbD_eq
  intro b hb
  have hslice := congrArg (·.getLsbD (b % 8)) (h ⟨b / 8, Nat.div_lt_of_lt_mul hb⟩)
  simpa [BitVec.getLsbD_extractLsb', Nat.mod_lt, Nat.div_add_mod] using hslice

theorem f32At_eq_iff {rx : Frame} {k : FieldOffset} {w : Word} :
    f32At rx k = w ↔ ∀ j : Fin floatLen, byteAt rx (fieldOffset k j) = w.extractLsb' (8 * j.val) 8 := by
  simp only [← extractLsb'_f32At]
  exact ⟨fun h _ => h ▸ rfl, eq_of_byteSlices_eq (n := floatLen)⟩

/-- A frame that carries the pattern `w` from offset `k` on. -/
def frameWithPattern (k : FieldOffset) (w : Word) : Frame :=
  Vector.ofFn fun n => w.extractLsb' (8 * (n.val - k.val)) 8

theorem f32At_frameWithPattern (k : FieldOffset) (w : Word) : f32At (frameWithPattern k w) k = w :=
  f32At_eq_iff.mpr fun j => by simp [byteAt, frameWithPattern, fieldOffset]

/-- Settles O42: the field and its four bytes determine each other. -/
theorem floatFieldIsABijection : Obligations.FloatFieldIsABijection :=
  ⟨extractLsb'_f32At, fun k w => ⟨frameWithPattern k w, f32At_frameWithPattern k w⟩,
    fun _ rx' k h j => (f32At_eq_iff.mp h j).trans (extractLsb'_f32At rx' k j)⟩

/-! ### What an extractor reads: the bytes on which two frames must agree for it to answer the same -/

/-- Two frames agree on the `n` offsets from `lo` on. -/
def SameBytes (rx rx' : Frame) (lo n : Nat) : Prop :=
  ∀ k : Fin frameLen, lo ≤ k.val → k.val < lo + n → byteAt rx k = byteAt rx' k

section SameBytes

variable {rx rx' : Frame}

theorem sameBytes_add {lo m n : Nat} :
    SameBytes rx rx' lo (m + n) ↔ SameBytes rx rx' lo m ∧ SameBytes rx rx' (lo + m) n := by
  constructor
  · intro h
    exact ⟨fun k hlo hhi => h k hlo (by omega), fun k hlo hhi => h k (by omega) (by omega)⟩
  · rintro ⟨hfirst, hrest⟩ k hlo hhi
    by_cases hk : k.val < lo + m
    · exact hfirst k hlo hk
    · exact hrest k (by omega) (by omega)

theorem flagAt_eq_iff_sameBytes {k : Fin frameLen} :
    flagAt rx k = flagAt rx' k ↔ SameBytes rx rx' k.val flagLen := by
  constructor
  · intro h n hlo hhi
    obtain rfl : k = n := Fin.ext (by simp only [flagLen] at hhi; omega)
    exact h
  · exact fun h => h k (Nat.le_refl _) (Nat.lt_succ_self _)

theorem f32At_eq_iff_sameBytes {k : FieldOffset} :
    f32At rx k = f32At rx' k ↔ SameBytes rx rx' k.val floatLen := by
  rw [f32At_eq_iff]
  simp only [extractLsb'_f32At]
  constructor
  · intro h n hlo hhi
    have hn : fieldOffset k ⟨n.val - k.val, by omega⟩ = n := Fin.ext (by simp only [fieldOffset]; omega)
    exact hn ▸ h _
  · exact fun h j => h _ (Nat.le_add_right _ _) (Nat.add_lt_add_left j.isLt _)

theorem payload_eq_iff_sameBytes {n : Nat} (hn : n ≤ payloadMax) :
    payload rx n = payload rx' n ↔ SameBytes rx rx' payloadOffset n := by
  rw [payload_eq_slice rx hn, payload_eq_slice rx' hn, Except.ok.injEq]
  constructor
  · intro h k hlo hhi
    have hk : k.val - payloadOffset < n := by omega
    have hbyte := congrArg (·[k.val - payloadOffset]?) h
    simpa [hk, Nat.add_sub_cancel' hlo, byteAt] using hbyte
  · intro h
    have hfits := payload_fits hn
    refine List.ext_getElem (by simp) fun j hj _ => ?_
    rw [length_payload_slice rx hn] at hj
    simpa [byteAt] using h ⟨payloadOffset + j, by omega⟩ (Nat.le_add_right _ _) (Nat.add_lt_add_left hj _)

/-- R95: the four fields lie side by side, so they read the 13 bytes of the combined reading and no other. -/
theorem decodeMs_eq_iff_sameBytes :
    decodeMs rx = decodeMs rx' ↔ SameBytes rx rx' payloadOffset allLen := by
  have hfields : allLen = floatLen + (floatLen + (floatLen + flagLen)) := rfl
  rw [hfields, sameBytes_add, sameBytes_add, sameBytes_add]
  simp only [decodeMs, MeasurementSet.mk.injEq, f32At_eq_iff_sameBytes, flagAt_eq_iff_sameBytes]
  rfl

end SameBytes

/-- Settles O43: the payload and the combined reading answer the same for the same pairs of frames. -/
theorem combinedReadingOffsets : Obligations.CombinedReadingOffsets :=
  ⟨fun _ => rfl, fun _ _ => (payload_eq_iff_sameBytes (by decide)).trans decodeMs_eq_iff_sameBytes.symm⟩

/-! ### The frame of a completion -/

/-! R96: the rows that do not write a register leave it. -/

theorem writesOf_v_of_ne {i : Instr} (hread : i ≠ .readVoltage) (hall : i ≠ .readAll) (rx : Frame)
    (m : MeasurementSet) : (writesOf i rx m).v = m.v := by
  cases i with
  | readVoltage => exact absurd rfl hread
  | readAll => exact absurd rfl hall
  | readCurrent | readPower | readRelay | setRelayOn | setRelayOff => rfl

theorem writesOf_i_of_ne {i : Instr} (hread : i ≠ .readCurrent) (hall : i ≠ .readAll) (rx : Frame)
    (m : MeasurementSet) : (writesOf i rx m).i = m.i := by
  cases i with
  | readCurrent => exact absurd rfl hread
  | readAll => exact absurd rfl hall
  | readVoltage | readPower | readRelay | setRelayOn | setRelayOff => rfl

theorem writesOf_p_of_ne {i : Instr} (hread : i ≠ .readPower) (hall : i ≠ .readAll) (rx : Frame)
    (m : MeasurementSet) : (writesOf i rx m).p = m.p := by
  cases i with
  | readPower => exact absurd rfl hread
  | readAll => exact absurd rfl hall
  | readVoltage | readCurrent | readRelay | setRelayOn | setRelayOff => rfl

theorem writesOf_relay_of_float {i : Instr} (hfloat : i = .readVoltage ∨ i = .readCurrent ∨ i = .readPower)
    (rx : Frame) (m : MeasurementSet) : (writesOf i rx m).relay = m.relay := by
  rcases hfloat with rfl | rfl | rfl <;> rfl

/-- Settles O23: RX holds the inbound frame, and the registers are written by the command's row only. -/
theorem completionWritesOnlyItsRegisters : Obligations.CompletionWritesOnlyItsRegisters := by
  unfold Obligations.CompletionWritesOnlyItsRegisters
  intro i s rx rest hp hc ha
  refine ⟨_, (exec_eq_runCommand i s).trans (runCommand_done hp hc ha), fun _ => rfl, fun k => ?rx,
    fun a hout => ?outside, ?canonical, rfl, rfl, rfl, rfl, rfl, ?answers, fun hread hall => ?v,
    fun hread hall => ?i, fun hread hall => ?p, fun hfloat => ?relay⟩
  case rx => rw [xferDone_rxbuf]; exact Memory.read_ofFrame rx k
  case outside => rw [xferDone_rxbuf]; exact Memory.read_ofFrame_outside rx hout
  case canonical => rw [xferDone_rxbuf]; exact Memory.ofFrame_wf rx
  case answers => simp only [xferDone_answers, takeAnswer_answers, ha, List.tail_cons]
  case v => rw [xferDone_v, writesOf_v_of_ne hread hall]; rfl
  case i => rw [xferDone_i, writesOf_i_of_ne hread hall]; rfl
  case p => rw [xferDone_p, writesOf_p_of_ne hread hall]; rfl
  case relay => rw [xferDone_relay, writesOf_relay_of_float hfloat]; rfl

/-! ### The atomic step -/

/-- What the answer `a` does to the command `i` in flight: `XferDone` (R98) or `XferFault` (R99). -/
def takesAnswer (i : Instr) : Answer → State → State
  | .done rx => xferDone (writesOf i) rx
  | .fault => raiseTransferFault

theorem exec_takesAnswer {i : Instr} {a : Answer} {rest : List Answer} {s : State} (hp : s.phase = .exchange)
    (hc : s.cmd = encodeCode i) (ha : s.answers = a :: rest) :
    exec i s = .next (takesAnswer i a (takeAnswer s)) := by
  rw [exec_eq_runCommand]
  cases a with
  | done rx => exact runCommand_done hp hc ha
  | fault => exact runCommand_fault hp hc ha

@[simp] theorem takesAnswer_txbuf (i : Instr) (a : Answer) (s : State) : (takesAnswer i a s).txbuf = s.txbuf := by
  cases a <;> rfl
@[simp] theorem takesAnswer_hostCmds (i : Instr) (a : Answer) (s : State) :
    (takesAnswer i a s).hostCmds = s.hostCmds := by
  cases a <;> rfl
@[simp] theorem takesAnswer_answers (i : Instr) (a : Answer) (s : State) :
    (takesAnswer i a s).answers = s.answers := by
  cases a <;> rfl
@[simp] theorem takesAnswer_trace (i : Instr) (a : Answer) (s : State) :
    (takesAnswer i a s).trace = s.trace ++ answerEvents a := by
  cases a <;> rfl

/-- R100: the host sees of an answer to a freshly issued command the atomic view, whatever else the state holds. -/
theorem hostView_takesAnswer {i : Instr} {s : State} (hms : s.ms = clearedMs) (hecho : s.echo = clearByte)
    (hc : s.cmd = encodeCode i) (hdone : s.doneFlag = false) (hfault : s.faultFlag = false) (a : Answer) :
    hostView (takesAnswer i a s) = atomicView i a := by
  cases a with
  | done rx =>
    have hrow : writesOf i rx s.ms = decodeTable i rx := by rw [hms, writesOf_clearedMs]
    have hstatus : status (xferDone (writesOf i) rx s) = 0b010 := by
      simp only [status, busy, xferDone_faultFlag, xferDone_doneFlag, xferDone_phase, hfault]
      rfl
    simp only [hostView, takesAnswer, atomicView, hstatus, xferDone_v, xferDone_i, xferDone_p, xferDone_relay,
      xferDone_echo, xferDone_cmd, hrow, hc]
    rfl
  | fault =>
    obtain ⟨hv, hi, hpw, hrelay⟩ := ms_eq_clearedMs_iff.mp hms
    have hstatus : status (raiseTransferFault s) = 0b100 := by
      simp only [status, busy, raiseTransferFault_faultFlag, raiseTransferFault_doneFlag, raiseTransferFault_phase,
        hdone]
      rfl
    simp only [hostView, takesAnswer, atomicView, hstatus, raiseTransferFault_v, raiseTransferFault_i,
      raiseTransferFault_p, raiseTransferFault_relay, raiseTransferFault_echo, raiseTransferFault_cmd, hv, hi, hpw,
      hrelay, hecho, hc]
    rfl

theorem stepN_succ_of_step {n : Nat} {s t : State} (h : step s = .next t) : stepN (n + 1) s = stepN n t := by
  simp only [stepN, h]

/-- The state after the step that issues the command `i`. -/
def afterIssue (i : Instr) (s : State) : State :=
  acceptIssue (encodeCode i) (takeCommand (nextCycle s))

theorem step_eq_afterIssue {s : State} {i : Instr} {rest : List Code} (hr : (wiresNow s).rst = false)
    (hv : (wiresNow s).cmdValid = true) (hp : s.phase = .idle) (hh : s.hostCmds = encodeCode i :: rest) :
    step s = .next (afterIssue i s) := by
  rw [step_presented hr hv hp hh, exec_eq_runCommand]
  exact runCommand_idle hp

/-- Settles O31: the `Issue` clears what the view shows (R97), the answer then writes its row (R98) or FAULT (R99). -/
theorem twoEventsAreTheAtomicStep : Obligations.TwoEventsAreTheAtomicStep := by
  unfold Obligations.TwoEventsAreTheAtomicStep
  intro i a s cs as hp hh ha hr hv hr' hv'
  have hanswer : step (afterIssue i s) = .next (takesAnswer i a (takeAnswer (nextCycle (afterIssue i s)))) :=
    (step_answered (s := afterIssue i s) hr' hv' rfl rfl).trans
      (exec_takesAnswer (s := nextCycle (afterIssue i s)) rfl rfl ha)
  have hrun : stepN 2 s = .next (takesAnswer i a (takeAnswer (nextCycle (afterIssue i s)))) := by
    rw [stepN_succ_of_step (step_eq_afterIssue hr hv hp hh), stepN_succ_of_step hanswer, stepN]
  refine ⟨_, hrun, hostView_takesAnswer rfl rfl rfl rfl rfl a, ?tx, ?hostCmds, ?answers, ?trace⟩
  case tx => simp only [takesAnswer_txbuf, takeAnswer_txbuf, nextCycle_txbuf, afterIssue, acceptIssue_txbuf]
  case hostCmds => simp [afterIssue, hh]
  case answers => simp [afterIssue, ha]
  case trace => simp [afterIssue]

end Sys2Proof.Machine
end

section
/-! Proofs of the statements about the five read commands of 41_read_commands.md (R110 to R114): the template of the
command rules once for every command, then what is particular to each read. -/

namespace Sys2Proof.Machine

/-! ### The template of the command rules -/

/-- R90: the outbound frame written out. -/
theorem encodeCommand_eq_literal (c : Code) :
    encodeCommand c = #v[c, 0, 0, 0, 0, 0, 0, 0, 0, 0, 0, 0, 0, 0, 0, 0, 0, 0, 0, 0] := rfl

/-- R97: the accepted `Issue`, but for the open RXBUF. -/
theorem acceptIssue_sameButOpenRx (c : Code) (s : State) :
    Stated.SameButOpenRx (acceptIssue c s) (Stated.issued c s) := by
  simp only [Stated.SameButOpenRx, acceptIssue, Stated.issued, clearPattern, clearByte]

/-- R99, R143: the TransferFault entry, but for the open RXBUF; the answer is used up. -/
theorem raiseTransferFault_sameButOpenRx (s : State) :
    Stated.SameButOpenRx (raiseTransferFault (takeAnswer s)) (Stated.faulted s) := by
  simp only [Stated.SameButOpenRx, raiseTransferFault, takeAnswer, Stated.faulted]

/-- The state with the Measurement Set `m`. -/
def withMs (m : MeasurementSet) (s : State) : State :=
  { s with v := m.v, i := m.i, p := m.p, relay := m.relay }

theorem echoOf_eq_byteAt_two (rx : Frame) : echoOf rx = byteAt rx 2 := rfl

/-- R98: the completion is the template's, followed by the command's register writes. -/
theorem xferDone_takeAnswer (wr : Frame → MeasurementSet → MeasurementSet) (rx : Frame) (s : State) :
    xferDone wr rx (takeAnswer s) = withMs (wr rx (Stated.completed rx s).ms) (Stated.completed rx s) := by
  simp only [xferDone, takeAnswer, withMs, Stated.completed, State.ms, echoOf_eq_byteAt_two]

/-- A command runs by the template as soon as `result` is its row of R96. -/
theorem commandRuns_of_writesOf {i : Instr} {result : Frame → State → State}
    (hresult : ∀ rx t, result rx t = withMs (writesOf i rx t.ms) t) :
    Stated.CommandRuns i (encodeCode i) result := by
  refine ⟨rfl, encodeCommand_eq_literal _, fun s hp => ?issue, fun s rx rest hp hc ha => ?done,
    fun s rest hp hc ha => ?fault, fun s hp hwait => ?held⟩
  all_goals rw [exec_eq_runCommand]
  case issue => exact ⟨_, runCommand_idle hp, acceptIssue_sameButOpenRx _ s⟩
  case done => rw [runCommand_done hp hc ha, xferDone_takeAnswer, hresult]
  case fault => exact ⟨_, runCommand_fault hp hc ha, raiseTransferFault_sameButOpenRx s⟩
  case held =>
    rcases hwait with hnone | hother
    · exact runCommand_noAnswer hp hnone
    · exact runCommand_held hp hother

/-! ### What is particular to each read: its row of R96, at the literal offsets of the rules -/

/-- R92, R55: the float field at offset `k`, its four bytes written out. -/
theorem f32At_eq_le32At (rx : Frame) (k : FieldOffset) (h : k.val + 3 < frameLen) :
    f32At rx k = Stated.le32At rx k.val h := rfl

theorem payloadFloat_eq_le32At (rx : Frame) : payloadFloat rx = Stated.le32At rx 3 (by decide) :=
  f32At_eq_le32At rx floatAt (by decide)

theorem payloadFlag_eq_byteAt_three (rx : Frame) : payloadFlag rx = byteAt rx 3 := rfl

/-- R95: the four fields side by side. -/
theorem decodeMs_eq_le32At (rx : Frame) : decodeMs rx =
    { v := Stated.le32At rx 3 (by decide), i := Stated.le32At rx 7 (by decide)
      p := Stated.le32At rx 11 (by decide), relay := byteAt rx 15 } := by
  have hv := f32At_eq_le32At rx voltageAt (by decide)
  have hi := f32At_eq_le32At rx currentAt (by decide)
  have hp := f32At_eq_le32At rx powerAt (by decide)
  rw [decodeMs, hv, hi, hp]
  rfl

/-- Settles O4: V takes the float field of the payload. -/
theorem readVoltageRuns : Obligations.ReadVoltageRuns :=
  commandRuns_of_writesOf (i := .readVoltage) fun _ _ => by
    simp only [writesOf, writeVoltage, payloadFloat_eq_le32At, withMs, State.ms]

/-- Settles O5: I takes the float field of the payload, at the same offsets as V in read_voltage. -/
theorem readCurrentRuns : Obligations.ReadCurrentRuns :=
  commandRuns_of_writesOf (i := .readCurrent) fun _ _ => by
    simp only [writesOf, writeCurrent, payloadFloat_eq_le32At, withMs, State.ms]

/-- Settles O6: P takes the float field of the payload, at the same offsets as V in read_voltage. -/
theorem readPowerRuns : Obligations.ReadPowerRuns :=
  commandRuns_of_writesOf (i := .readPower) fun _ _ => by
    simp only [writesOf, writePower, payloadFloat_eq_le32At, withMs, State.ms]

/-- Settles O7: RELAY takes the flag byte of the payload. -/
theorem readRelayRuns : Obligations.ReadRelayRuns :=
  commandRuns_of_writesOf (i := .readRelay) fun _ _ => by
    simp only [writesOf, writeRelay, payloadFlag_eq_byteAt_three, withMs, State.ms]

/-- Settles O8: all four registers take the combined reading. -/
theorem readAllRuns : Obligations.ReadAllRuns :=
  commandRuns_of_writesOf (i := .readAll) fun _ _ => by
    simp only [writesOf, writeAll, decodeMs_eq_le32At, withMs]

end Sys2Proof.Machine
end

section
/-! Proofs of the statements about the two set-relay commands of 42_set_relay_commands.md (R120 to R122): both are the
pseudo-operation `set_relay`, so its code, its row of R96 and the template are settled once for either boolean. -/

namespace Sys2Proof.Machine

/-- R122: the boolean chooses the code. -/
theorem encodeCode_setRelay (on : Bool) : encodeCode (setRelay on) = if on then 0x06 else 0x07 := by
  cases on <;> rfl

/-- R120, R121: RELAY takes the flag byte of the payload, whichever state was requested. -/
theorem writesOf_setRelay (on : Bool) (rx : Frame) (m : MeasurementSet) :
    writesOf (setRelay on) rx m = { m with relay := byteAt rx 3 } := by
  rw [← payloadFlag_eq_byteAt_three]
  cases on with
  | false | true => rfl

theorem commandRuns_setRelay (on : Bool) :
    Stated.CommandRuns (setRelay on) (if on then 0x06 else 0x07) fun rx t => { t with relay := byteAt rx 3 } := by
  rw [← encodeCode_setRelay]
  exact commandRuns_of_writesOf fun rx t => by simp only [writesOf_setRelay, withMs, State.ms]

/-- Settles O9: set_relay_on is `set_relay(true)`. -/
theorem setRelayOnRuns : Obligations.SetRelayOnRuns :=
  commandRuns_setRelay true

/-- Settles O10: set_relay_off is `set_relay(false)`. -/
theorem setRelayOffRuns : Obligations.SetRelayOffRuns :=
  commandRuns_setRelay false

/-- Settles O11: the template's `Issue` clause, for either boolean. -/
theorem setRelayPseudoOperation : Obligations.SetRelayPseudoOperation := by
  unfold Obligations.SetRelayPseudoOperation
  intro on
  obtain ⟨_, _, hissue, _⟩ := commandRuns_setRelay on
  exact hissue

end Sys2Proof.Machine
end

section
/-! Proof of the statement about the float fields of 43_float_fields.md (R115, R130): the payload's float field is the
pattern the frame carries, and each of the four float-decoding commands writes that field to its register. -/

namespace Sys2Proof.Machine

/-- R55, R92: the float field at the start of the payload is the pattern carried at offsets 3 to 6. -/
theorem payloadFloat_eq_iff_carriesAtPayload {rx : Frame} {w : Word} :
    payloadFloat rx = w ↔ Stated.CarriesAtPayload rx w := by
  rw [payloadFloat, f32At_eq_iff]
  constructor
  · exact fun h => ⟨h 0, h 1, h 2, h 3⟩
  · rintro ⟨h3, h4, h5, h6⟩ j
    match j with
    | 0 => exact h3
    | 1 => exact h4
    | 2 => exact h5
    | 3 => exact h6

/-! R96: the row of each float-decoding command writes the payload's float field. -/

theorem writesOf_readVoltage_v (rx : Frame) (m : MeasurementSet) :
    (writesOf .readVoltage rx m).v = payloadFloat rx := rfl

theorem writesOf_readCurrent_i (rx : Frame) (m : MeasurementSet) :
    (writesOf .readCurrent rx m).i = payloadFloat rx := rfl

theorem writesOf_readPower_p (rx : Frame) (m : MeasurementSet) :
    (writesOf .readPower rx m).p = payloadFloat rx := rfl

/-- The combined reading has V at its first payload offset (R95). -/
theorem writesOf_readAll_v (rx : Frame) (m : MeasurementSet) :
    (writesOf .readAll rx m).v = payloadFloat rx := rfl

/-- Settles O12: each command completes with its row, which writes the pattern that the payload carries. -/
theorem fourFloatReadsReturnThePattern : Obligations.FourFloatReadsReturnThePattern := by
  unfold Obligations.FourFloatReadsReturnThePattern
  intro w rx rest s hcarries hp ha
  have hfloat : payloadFloat rx = w := payloadFloat_eq_iff_carriesAtPayload.mpr hcarries
  have hdone (i : Instr) (hc : s.cmd = encodeCode i) : exec i s = .next (xferDone (writesOf i) rx (takeAnswer s)) :=
    exec_takesAnswer hp hc ha
  refine ⟨fun hc => ⟨_, hdone .readVoltage hc, ?voltage⟩, fun hc => ⟨_, hdone .readCurrent hc, ?current⟩,
    fun hc => ⟨_, hdone .readPower hc, ?power⟩, fun hc => ⟨_, hdone .readAll hc, ?all⟩⟩
  case voltage => rw [xferDone_v, writesOf_readVoltage_v, hfloat]
  case current => rw [xferDone_i, writesOf_readCurrent_i, hfloat]
  case power => rw [xferDone_p, writesOf_readPower_p, hfloat]
  case all => rw [xferDone_v, writesOf_readAll_v, hfloat]

end Sys2Proof.Machine
end

section
/-! Proofs of the statements about 60_exceptions.md: the rejection of reserved codes (R149), the entry into the one
exception TransferFault (R143), the inbound frames that are no exception (R148), and that no state with the
invariants stops. -/

namespace Sys2Proof.Machine

/-! ### Reserved codes -/

/-- A step in IDLE with a reserved code presented rejects it, the code taken and the wires used up (R149). -/
theorem step_rejected {s : State} {c : Code} {rest : List Code} (hr : (wiresNow s).rst = false)
    (hv : (wiresNow s).cmdValid = true) (hp : s.phase = .idle) (hh : s.hostCmds = c :: rest)
    (hc : legalCode c = false) : step s = .next (rejectIssue c (takeCommand (nextCycle s))) := by
  rw [step_idle hr hp, if_pos hv]
  exact issueStep_reserved hh hc

/-- Settles O14: a code other than the seven is reserved, and its `Issue` is rejected. -/
theorem reservedCodesAreRejected : Obligations.ReservedCodesAreRejected := by
  unfold Obligations.ReservedCodesAreRejected
  intro s c rest hr hv hp hh hother
  have hreserved : legalCode c = false :=
    Bool.eq_false_iff.mpr fun hl => hother c ((legalCode_iff_mem c).mp hl) rfl
  rw [step_rejected hr hv hp hh hreserved, takeCommand_nextCycle_of_hostCmds hh, rejectIssue]

/-! ### The transport's answer -/

theorem orphanAnswer_fault {s : State} {rest : List Answer} (ha : s.answers = .fault :: rest) :
    orphanAnswer s = .next (raiseTransferFault (takeAnswer s)) := by
  simp only [orphanAnswer, ha]

/-- R99 does not read CMD: a fault is taken alike for a command in flight and for a reserved code. -/
theorem step_faulted {s : State} {rest : List Answer} (hr : (wiresNow s).rst = false)
    (hv : (wiresNow s).xferValid = true) (hp : s.phase = .exchange) (ha : s.answers = .fault :: rest) :
    step s = .next (raiseTransferFault (takeAnswer (nextCycle s))) := by
  cases hl : legalCode s.cmd with
  | true =>
    obtain ⟨i, hc⟩ := (legalCode_iff_encodeCode s.cmd).mp hl
    rw [step_answered hr hv hp hc]
    exact exec_takesAnswer (s := nextCycle s) hp hc ha
  | false =>
    rw [step_exchange hr hp, if_pos hv, answerStep_reserved (s := nextCycle s) hl]
    exact orphanAnswer_fault ha

/-- Settles O17: the entry of R143, of the state whose wires are used up. -/
theorem transferFaultEntry : Obligations.TransferFaultEntry := by
  unfold Obligations.TransferFaultEntry
  intro s rest hr hv hp ha
  obtain rfl : s.answers.tail = rest := by rw [ha, List.tail_cons]
  exact ⟨_, step_faulted hr hv hp ha, raiseTransferFault_sameButOpenRx (nextCycle s)⟩

/-- R34 (ii): what is in flight is a command. -/
theorem Invariants.cmd_eq_encodeCode {s : State} (h : Invariants s) (hp : s.phase = .exchange) :
    ∃ i, s.cmd = encodeCode i := by
  obtain ⟨-, -, -, -, hlegal⟩ := h.busyCleared hp
  exact (legalCode_iff_encodeCode s.cmd).mp hlegal

/-- Settles O18: `XferDone` checks nothing in the frame (R101) and writes no FAULT, which the `Issue` cleared. -/
theorem noInboundFrameIsAFault : Obligations.NoInboundFrameIsAFault := by
  unfold Obligations.NoInboundFrameIsAFault
  intro s rx rest hinv hr hv hp ha
  obtain ⟨i, hc⟩ := hinv.cmd_eq_encodeCode hp
  obtain ⟨-, hfault, -, -, -⟩ := hinv.busyCleared hp
  have hdone : step s = .next (xferDone (writesOf i) rx (takeAnswer (nextCycle s))) :=
    (step_answered hr hv hp hc).trans (exec_takesAnswer (s := nextCycle s) hp hc ha)
  exact ⟨_, hdone, hfault, rfl, rfl, rfl⟩

/-! ### No state with the invariants stops -/

/-- Settles O28: the one refusal needs a reserved code in flight, which R34 (ii) shuts out. -/
theorem everyStepContinues : Obligations.EveryStepContinues := by
  unfold Obligations.EveryStepContinues
  intro s hinv
  rcases step_cases s with ⟨t, hnext, -⟩ | ⟨-, hp, hreserved, -⟩
  · exact ⟨t, hnext⟩
  · obtain ⟨-, -, -, -, hlegal⟩ := hinv.busyCleared hp
    exact absurd hlegal (Bool.eq_false_iff.mp hreserved)

end Sys2Proof.Machine
end

section
/-! Proofs of the statements about 70_reset_and_hazards.md: the hold while busy (R165), the hang without an answer
(R168), and the end of a run under XFER_LIVENESS (R172). -/

namespace Sys2Proof.Machine

/-! ### The end of a run under XFER_LIVENESS -/

/-- What a run towards its end keeps: the premises of R172, with the invariants. -/
structure OnCourse (s : State) : Prop where
  invariants : Invariants s
  noneAbandoned : abandoned s.trace = 0
  noReset : NoReset s
  xferLiveness : XferLiveness s

/-- How many steps the run still takes at most: the schedule's, two for each code to come (its `Issue` and its answer),
one for the answer to the command in flight. -/
def stepsLeft (s : State) : Nat :=
  s.schedule.length + 2 * s.hostCmds.length + inFlight s.phase

theorem StepTo.schedule_eq {s t : State} (h : StepTo s t) : t.schedule = s.schedule.tail := by
  cases h <;> simp

theorem stepsLeft_eq_zero_iff {s : State} :
    stepsLeft s = 0 ↔ s.schedule = [] ∧ s.hostCmds = [] ∧ s.phase = .idle := by
  cases hp : s.phase <;> simp [stepsLeft, hp, inFlight]

/-- An event that leaves less for the block to do, the wires of its step used up. -/
theorem stepsLeft_le_of_event {s t : State} (hst : step s = .next t)
    (hless : 2 * t.hostCmds.length + inFlight t.phase < 2 * s.hostCmds.length + inFlight s.phase) :
    stepsLeft t ≤ stepsLeft s - 1 := by
  have hsched : t.schedule.length ≤ s.schedule.length := by simp [(stepTo_of_step hst).schedule_eq]
  unfold stepsLeft
  omega

theorem inFlight_le_one (p : Phase) : inFlight p ≤ 1 := by
  cases p <;> decide

theorem wiresNow_of_exhausted {s : State} (h : s.schedule = []) : wiresNow s = Wires.eager := by
  simp only [wiresNow, h]

theorem NoReset.wiresNow_rst {s : State} (h : NoReset s) : (wiresNow s).rst = false := by
  cases hs : s.schedule with
  | nil => rw [wiresNow_of_exhausted hs, Wires.eager]
  | cons w ws =>
    have hw : wiresNow s = w := by simp only [wiresNow, hs]
    rw [hw]
    exact h w (by simp [hs])

/-- The wires of a later step are among those of the schedule. -/
theorem NoReset.of_schedule_tail {s t : State} (h : NoReset s) (ht : t.schedule = s.schedule.tail) : NoReset t :=
  fun w hw => h w (List.mem_of_mem_tail (ht ▸ hw))

/-- Only a `Reset` abandons an exchange (R161). -/
theorem StepTo.abandoned_eq {s t : State} (h : StepTo s t) (hr : (wiresNow s).rst = false) :
    abandoned t.trace = abandoned s.trace := by
  cases h with
  | reset hrst => rw [hr] at hrst; cases hrst
  | nothing => rfl
  | rejected | accepted | completed | faulted => simp [track]

/-- Each answer the transport owes is used by the command it answers: an accepted `Issue` moves the need for it from the
codes to come to the exchange in flight, and the answer ends that need. -/
theorem XferLiveness.of_stepTo {s t : State} (h : XferLiveness s) (hst : StepTo s t)
    (hr : (wiresNow s).rst = false) : XferLiveness t := by
  unfold XferLiveness answersNeeded at h ⊢
  cases hst with
  | reset hrst => rw [hr] at hrst; cases hrst
  | nothing => exact h
  | rejected c rest _ _ hh hc => simpa [hh, hc] using h
  | accepted i rest _ hp hh => simpa [hh, hp, inFlight] using h
  | completed i rx rest _ hp _ ha => simpa [ha, hp, inFlight] using h
  | faulted rest _ hp ha => simpa [ha, hp, inFlight] using h

theorem OnCourse.of_stepTo {s t : State} (h : OnCourse s) (hst : StepTo s t) : OnCourse t where
  invariants := h.invariants.of_stepTo hst
  noneAbandoned := (hst.abandoned_eq h.noReset.wiresNow_rst).trans h.noneAbandoned
  noReset := h.noReset.of_schedule_tail hst.schedule_eq
  xferLiveness := h.xferLiveness.of_stepTo hst h.noReset.wiresNow_rst

/-- The transport that owes an answer to the command in flight has one. -/
theorem XferLiveness.answers_of_exchange {s : State} (h : XferLiveness s) (hp : s.phase = .exchange) :
    ∃ a rest, s.answers = a :: rest := by
  refine List.exists_cons_of_length_pos (Nat.lt_of_lt_of_le ?_ h)
  simp [answersNeeded, hp, inFlight]

/-- A code presented in IDLE is taken, be it accepted (R97) or rejected (R149). -/
theorem step_takes_code {s : State} {c : Code} {rest : List Code} (hr : (wiresNow s).rst = false)
    (hv : (wiresNow s).cmdValid = true) (hp : s.phase = .idle) (hh : s.hostCmds = c :: rest) :
    ∃ t, step s = .next t ∧ t.hostCmds = rest := by
  cases hl : legalCode c with
  | true =>
    obtain ⟨i, rfl⟩ := (legalCode_iff_encodeCode c).mp hl
    exact ⟨_, step_eq_afterIssue hr hv hp hh, by simp [afterIssue, hh]⟩
  | false => exact ⟨_, step_rejected hr hv hp hh hl, by simp [hh]⟩

/-- An answer presented to a command in flight ends the exchange (R98, R99). -/
theorem step_takes_answer {s : State} {i : Instr} {a : Answer} {rest : List Answer} (hr : (wiresNow s).rst = false)
    (hv : (wiresNow s).xferValid = true) (hp : s.phase = .exchange) (hc : s.cmd = encodeCode i)
    (ha : s.answers = a :: rest) : ∃ t, step s = .next t ∧ t.phase = .idle := by
  refine ⟨_, (step_answered hr hv hp hc).trans (exec_takesAnswer (s := nextCycle s) hp hc ha), ?_⟩
  cases a with
  | done | fault => rfl

/-- Where everything is presented and nothing happens, nothing is left to happen. -/
theorem OnCourse.stepsLeft_eq_zero {s : State} (h : OnCourse s) (hs : s.schedule = [])
    (hst : step s = .next (nextCycle s)) : stepsLeft s = 0 := by
  have hw := wiresNow_of_exhausted hs
  have hr := h.noReset.wiresNow_rst
  cases hp : s.phase with
  | idle =>
    cases hh : s.hostCmds with
    | nil => exact stepsLeft_eq_zero_iff.mpr ⟨hs, hh, hp⟩
    | cons c rest =>
      obtain ⟨t, ht, htaken⟩ := step_takes_code hr (by rw [hw, Wires.eager]) hp hh
      cases hst.symm.trans ht
      simp [hh] at htaken
  | exchange =>
    obtain ⟨i, hc⟩ := h.invariants.cmd_eq_encodeCode hp
    obtain ⟨a, rest, ha⟩ := h.xferLiveness.answers_of_exchange hp
    obtain ⟨t, ht, hidle⟩ := step_takes_answer hr (by rw [hw, Wires.eager]) hp hc ha
    cases hst.symm.trans ht
    simp [hp] at hidle

/-- Every step uses up one of the steps left: the wires of the schedule where nothing happens, else by its event. -/
theorem OnCourse.stepsLeft_le {s t : State} (h : OnCourse s) (hst : step s = .next t) :
    stepsLeft t ≤ stepsLeft s - 1 := by
  cases stepTo_of_step hst with
  | reset hrst => rw [h.noReset.wiresNow_rst] at hrst; cases hrst
  | nothing =>
    cases hs : s.schedule with
    | nil =>
      have hsame : stepsLeft (nextCycle s) = stepsLeft s := by simp [stepsLeft, hs]
      rw [hsame, h.stepsLeft_eq_zero hs hst]
    | cons w ws => simp +arith [stepsLeft, hs]
  | rejected c rest _ hp hh => exact stepsLeft_le_of_event hst (by simp [hp, hh, inFlight])
  | accepted i rest _ hp hh => exact stepsLeft_le_of_event hst (by simp +arith [hp, hh, inFlight])
  | completed i rx rest _ hp | faulted rest _ hp => exact stepsLeft_le_of_event hst (by simp [hp, inFlight])

/-- With every answer given and none abandoned, each accepted `Issue` has its `Rsp` (R102, R11). -/
theorem OnCourse.runEnded {s : State} (h : OnCourse s) (hzero : stepsLeft s = 0) : RunEnded s := by
  obtain ⟨-, hcmds, hidle⟩ := stepsLeft_eq_zero_iff.mp hzero
  refine ⟨hcmds, ?_, hidle⟩
  calc responses s.trace = answered s.trace := h.invariants.oneResponseEach
    _ = exchanges s.trace := by simp [h.invariants.exchangesBalance, hidle, h.noneAbandoned, inFlight]
    _ = acceptedIssues s.trace := h.invariants.oneExchangeEach

theorem OnCourse.run_ends {n : Nat} {s : State} (h : OnCourse s) (hn : stepsLeft s ≤ n) :
    ∃ t, stepN n s = .next t ∧ RunEnded t := by
  induction n generalizing s with
  | zero => exact ⟨s, rfl, h.runEnded (Nat.eq_zero_of_le_zero hn)⟩
  | succ n ih =>
    obtain ⟨u, hu⟩ := everyStepContinues s h.invariants
    have hleft := h.stepsLeft_le hu
    rw [stepN_succ_of_step hu]
    exact ih (h.of_stepTo (stepTo_of_step hu)) (by omega)

/-- Settles O33: the premises last, and every step uses up one of the steps left, until none is left. -/
theorem runsEndUnderXferLiveness : Obligations.RunsEndUnderXferLiveness := by
  unfold Obligations.RunsEndUnderXferLiveness
  intro s hinv habandoned hreset hlive
  exact OnCourse.run_ends ⟨hinv, habandoned, hreset, hlive⟩ (Nat.add_le_add_left (inFlight_le_one s.phase) _)

/-! ### The hang without an answer -/

/-- In EXCHANGE a step without `Reset` and without an answer uses up the wires and does nothing else (R168). -/
theorem step_noAnswer {s : State} (hr : (wiresNow s).rst = false) (hp : s.phase = .exchange) (ha : s.answers = []) :
    step s = .next (nextCycle s) := by
  rcases step_cases s with ⟨t, hst, hto⟩ | ⟨-, -, -, rx, rest, hframe⟩
  · cases hto with
    | reset hrst => rw [hr] at hrst; cases hrst
    | nothing => exact hst
    | rejected _ _ _ hidle | accepted _ _ _ hidle => rw [hp] at hidle; cases hidle
    | completed _ _ _ _ _ _ hanswer | faulted _ _ _ hanswer => rw [ha] at hanswer; cases hanswer
  · rw [ha] at hframe; cases hframe

theorem stepN_noAnswer {s : State} (hreset : NoReset s) (hp : s.phase = .exchange) (ha : s.answers = []) (n : Nat) :
    stepN n s = .next { s with schedule := s.schedule.drop n } := by
  induction n generalizing s with
  | zero => rfl
  | succ n ih =>
    have hrest : NoReset (nextCycle s) := hreset.of_schedule_tail (nextCycle_schedule s)
    rw [stepN_succ_of_step (step_noAnswer hreset.wiresNow_rst hp ha), ih hrest hp ha]
    simp only [nextCycle, List.drop_tail]

theorem cmdReady_iff {s : State} : cmdReady s = true ↔ s.phase = .idle := by
  cases hp : s.phase <;> simp [cmdReady, busy, hp]

theorem cmdReady_of_exchange {s : State} (hp : s.phase = .exchange) : cmdReady s = false := by
  rw [cmdReady, busy_iff.mpr hp, Bool.not_true]

/-- Settles O16: nothing but the schedule changes, any number of steps long; `Reset` is enabled as ever. -/
theorem noAnswerHangsUntilReset : Obligations.NoAnswerHangsUntilReset := by
  unfold Obligations.NoAnswerHangsUntilReset
  intro s hp ha
  exact ⟨fun hreset => stepN_noAnswer hreset hp ha, busy_iff.mpr hp, cmdReady_of_exchange hp,
    fun hrst => ⟨_, step_of_rst hrst, resetEvent_phase _⟩⟩

/-! ### The hold while busy -/

/-- The state with the host's sequence `cs`. -/
def withHostCmds (cs : List Code) (s : State) : State :=
  { s with hostCmds := cs }

/-! No event of an exchange reads or writes the host's sequence. -/

theorem nextCycle_withHostCmds (cs : List Code) (s : State) :
    nextCycle (withHostCmds cs s) = withHostCmds cs (nextCycle s) := rfl

theorem takeAnswer_withHostCmds (cs : List Code) (s : State) :
    takeAnswer (withHostCmds cs s) = withHostCmds cs (takeAnswer s) := rfl

theorem resetEvent_withHostCmds (cs : List Code) (s : State) :
    resetEvent (withHostCmds cs s) = withHostCmds cs (resetEvent s) := by
  simp only [resetEvent, withHostCmds]

theorem takesAnswer_withHostCmds (i : Instr) (a : Answer) (cs : List Code) (s : State) :
    takesAnswer i a (withHostCmds cs s) = withHostCmds cs (takesAnswer i a s) := by
  cases a with
  | done rx => simp only [takesAnswer, xferDone, withHostCmds, State.ms]
  | fault => simp only [takesAnswer, raiseTransferFault, withHostCmds]

theorem orphanAnswer_withHostCmds (cs : List Code) (s : State) :
    orphanAnswer (withHostCmds cs s) = Stated.mapNext (withHostCmds cs) (orphanAnswer s) := by
  cases ha : s.answers with
  | nil => simp [orphanAnswer, withHostCmds, ha, Stated.mapNext]
  | cons a rest =>
    cases a with
    | done rx => simp [orphanAnswer, withHostCmds, ha, Stated.mapNext]
    | fault => simp [orphanAnswer, withHostCmds, ha, Stated.mapNext, raiseTransferFault, takeAnswer]

theorem exec_withHostCmds {i : Instr} {s : State} (hp : s.phase = .exchange) (hc : s.cmd = encodeCode i)
    (cs : List Code) : exec i (withHostCmds cs s) = Stated.mapNext (withHostCmds cs) (exec i s) := by
  cases ha : s.answers with
  | nil =>
    rw [exec_eq_runCommand, exec_eq_runCommand, runCommand_noAnswer hp ha,
      runCommand_noAnswer (s := withHostCmds cs s) hp ha, Stated.mapNext]
  | cons a rest =>
    rw [exec_takesAnswer hp hc ha, exec_takesAnswer (s := withHostCmds cs s) hp hc ha, takeAnswer_withHostCmds,
      takesAnswer_withHostCmds, Stated.mapNext]

theorem answerStep_withHostCmds {s : State} (hp : s.phase = .exchange) (cs : List Code) :
    answerStep exec (withHostCmds cs s) = Stated.mapNext (withHostCmds cs) (answerStep exec s) := by
  cases hl : legalCode s.cmd with
  | true =>
    obtain ⟨i, hc⟩ := (legalCode_iff_encodeCode s.cmd).mp hl
    rw [answerStep_legal hc, answerStep_legal (s := withHostCmds cs s) hc, exec_withHostCmds hp hc]
  | false =>
    rw [answerStep_reserved hl, answerStep_reserved (s := withHostCmds cs s) hl, orphanAnswer_withHostCmds]

/-- R165: in EXCHANGE what the host presents has no effect. -/
theorem step_withHostCmds {s : State} (hp : s.phase = .exchange) (cs : List Code) :
    step (withHostCmds cs s) = Stated.mapNext (withHostCmds cs) (step s) := by
  cases hr : (wiresNow s).rst with
  | true =>
    rw [step_of_rst hr, step_of_rst (s := withHostCmds cs s) hr, nextCycle_withHostCmds, resetEvent_withHostCmds,
      Stated.mapNext]
  | false =>
    have hsame : wiresNow (withHostCmds cs s) = wiresNow s := rfl
    rw [step_exchange hr hp, step_exchange (s := withHostCmds cs s) hr hp, hsame, nextCycle_withHostCmds]
    split
    · exact answerStep_withHostCmds (s := nextCycle s) hp cs
    · rfl

/-- R165: the hold keeps the host's sequence, and the transport's answer or `Reset` lifts it, nothing else. -/
theorem StepTo.of_exchange {s t : State} (hst : StepTo s t) (hp : s.phase = .exchange) :
    t.hostCmds = s.hostCmds ∧
      (t.phase = .idle ↔ ∃ e ∈ t.trace.drop s.trace.length, e = .reset ∨ e.isAnswer = true) := by
  cases hst with
  | reset | completed | faulted => simp
  | nothing => simp [hp]
  | rejected _ _ _ hidle | accepted _ _ _ hidle => rw [hp] at hidle; cases hidle

/-- Settles O15: the same step for any sequence of the host, which the hold keeps. -/
theorem issueWaitsWhileBusy : Obligations.IssueWaitsWhileBusy := by
  unfold Obligations.IssueWaitsWhileBusy
  intro s cs hp
  refine ⟨cmdReady_of_exchange hp, step_withHostCmds hp cs, fun t hst => ?_⟩
  rw [cmdReady_iff]
  exact (stepTo_of_step hst).of_exchange hp

end Sys2Proof.Machine
end

section
/-! Proofs of the statements about `Reset`: that it overrides and clears (R160), that it abandons the command in flight
(R161), and that the state it leaves meets the invariants (R34). -/

namespace Sys2Proof.Machine

/-! ### The event -/

/-- R160: what `Reset` writes, the cleared TX space in its canonical form. -/
theorem resetEvent_eq (s : State) : resetEvent s =
    { s with
      v := 0, i := 0, p := 0, relay := 0, echo := 0, cmd := 0, doneFlag := false, faultFlag := false
      txbuf := [], phase := .idle, rxbuf := openBuffer s.draws, draws := s.draws + 1
      trace := s.trace ++ [.reset] } := by
  rw [resetEvent, ← encodeCommand_zero, Memory.ofFrame_encodeCommand_zero]

/-- R32, R160: the host reads nothing that `Reset` leaves as it was. -/
theorem hostView_resetEvent (s : State) : hostView (resetEvent s) = hostView State.reset := rfl

/-- Settles O2: with `rst` presented the step is the `Reset` event, whatever else is presented. -/
theorem resetOverridesAndClears : Obligations.ResetOverridesAndClears := by
  unfold Obligations.ResetOverridesAndClears
  intro s hr
  refine ⟨resetEvent (nextCycle s), step_of_rst hr, ?cleared, hostView_resetEvent _⟩
  case cleared => rw [resetEvent_eq, Stated.SameButOpenRx, nextCycle]

/-! ### The command in flight -/

/-- R160: `Reset` is an input event; the block emits nothing at it. -/
theorem emitted_resetEvent (s : State) : emitted (resetEvent s).trace = emitted s.trace := by
  have hsilent : emitted [.reset] = [] := rfl
  rw [resetEvent_trace, emitted_append, hsilent, List.append_nil]

/-- R161: the trace counts the exchange that a `Reset` in EXCHANGE abandons. -/
theorem Invariants.abandoned_resetEvent {s : State} (h : Invariants s) (hp : s.phase = .exchange) :
    abandoned (Machine.resetEvent s).trace = abandoned s.trace + 1 := by
  have htrace : tracePhase s.trace = .exchange := h.phaseTraced.trans hp
  simp [track, htrace]

/-- Settles O3: the step is the `Reset` event, in a state whose trace shows an exchange in flight. -/
theorem resetAbandonsTheExchange : Obligations.ResetAbandonsTheExchange := by
  unfold Obligations.ResetAbandonsTheExchange
  intro s t hinv hp hr hst
  obtain rfl : resetEvent (nextCycle s) = t := Host.Outcome.next.inj ((step_of_rst hr).symm.trans hst)
  exact ⟨rfl, emitted_resetEvent (nextCycle s), hinv.nextCycle.abandoned_resetEvent hp, rfl⟩

/-! ### The invariants -/

/-- Settles O25: the base case of the induction over runs. -/
theorem resetMeetsTheInvariants : Obligations.ResetMeetsTheInvariants :=
  invariants_resetWith

end Sys2Proof.Machine
end

section
/-! Proofs of the statements about what the model answers outside the domains of 40_frame_codec.md: the refusal of an
inbound frame while CMD is reserved (R96, log entry 6), and the fault of `payload` past the frame (R91, log
entry 7). -/

namespace Sys2Proof.Machine

/-! ### The one refusal -/

theorem orphanAnswer_done {s : State} {rx : Frame} {rest : List Answer} (ha : s.answers = .done rx :: rest) :
    orphanAnswer s = .refused (.reservedInFlight s.cmd) := by
  simp only [orphanAnswer, ha]

/-- A refusing step has taken the transport's answer: no `rst`, and the answer is presented. -/
theorem wiresNow_of_step_refused {s : State} {r : Refusal} (h : step s = .refused r) (hp : s.phase = .exchange) :
    (wiresNow s).rst = false ∧ (wiresNow s).xferValid = true := by
  have hr : (wiresNow s).rst = false := Bool.eq_false_iff.mpr fun hrst => by
    rw [step_of_rst hrst] at h; cases h
  refine ⟨hr, by_contra fun hv => ?_⟩
  rw [step_exchange hr hp, if_neg hv] at h
  cases h

/-- Settles O30: `step_cases` says what a refusing step has in CMD and in the transport's list, the wires follow;
conversely the frame reaches `orphanAnswer`. -/
theorem theOneRefusal : Obligations.TheOneRefusal := by
  unfold Obligations.TheOneRefusal
  intro s r
  constructor
  · intro h
    rcases step_cases s with ⟨t, hnext, -⟩ | ⟨hrefused, hp, hreserved, hframe⟩
    · rw [hnext] at h; cases h
    · obtain ⟨hr, hv⟩ := wiresNow_of_step_refused h hp
      exact ⟨Host.Outcome.refused.inj (h.symm.trans hrefused), hr, hv, hp, hreserved, hframe⟩
  · rintro ⟨rfl, hr, hv, hp, hreserved, rx, rest, ha⟩
    rw [step_exchange hr hp, if_pos hv, answerStep_reserved (s := nextCycle s) hreserved]
    exact orphanAnswer_done (s := nextCycle s) ha

/-! ### The payload past the frame -/

/-- R50: a bounded access past the space faults with the first of its offsets that does not exist. -/
theorem load_past_end {k n : Nat} (h : frameLen < k + n) (sp : Space) (m : Memory) :
    load sp m k n = .error (.noSuchOffset sp (max k frameLen)) :=
  if_neg h.not_ge

/-- Settles O41: the payload begins inside the frame, so offset 20 is the first that does not exist. -/
theorem payloadOutsideItsDomain : Obligations.PayloadOutsideItsDomain := by
  unfold Obligations.PayloadOutsideItsDomain
  intro rx n hn
  have hpast : frameLen < payloadOffset + n := Nat.add_lt_add_left hn payloadOffset
  exact load_past_end hpast .rx (Memory.ofFrame rx)

end Sys2Proof.Machine
end

section
/-! Proofs of the statements about the binary32 reading of 43_float_fields.md (R132, R133): the fields of a pattern,
and the values of example patterns. -/

namespace Sys2Proof.Machine

/-! ### The fields of a pattern -/

/-- R132: the three slices are adjacent and cover the pattern. -/
theorem floatPattern_fields (w : Word) : floatPattern (floatSign w) (floatExponent w) (floatFraction w) = w :=
  calc w.extractLsb' 31 1 ++ w.extractLsb' 23 8 ++ w.extractLsb' 0 23
    _ = w.extractLsb' 23 9 ++ w.extractLsb' 0 23 :=
      congrArg (· ++ w.extractLsb' 0 23) (BitVec.extractLsb'_append_extractLsb'_eq_extractLsb' rfl)
    _ = w.extractLsb' 0 32 := BitVec.extractLsb'_append_extractLsb'_eq_extractLsb' rfl
    _ = w := BitVec.extractLsb'_eq_self

/-- A slice that begins in the low part and ends in the high part takes the low part's upper bits and the high part's
lower bits. -/
theorem extractLsb'_append_across {v w start lenLo : Nat} (h : start + lenLo = w) (lenHi : Nat)
    (hi : BitVec v) (lo : BitVec w) :
    (hi ++ lo).extractLsb' start (lenHi + lenLo) = hi.extractLsb' 0 lenHi ++ lo.extractLsb' start lenLo := by
  rw [← BitVec.extractLsb'_append_extractLsb'_eq_extractLsb' (start₂ := start + lenLo) rfl,
    BitVec.extractLsb'_append_eq_of_le h.ge, BitVec.extractLsb'_append_eq_of_add_le h.le, h, Nat.sub_self]

theorem floatSign_le32 (b0 b1 b2 b3 : Byte) : floatSign (le32 b0 b1 b2 b3) = b3.extractLsb' 7 1 :=
  calc (b3 ++ b2 ++ b1 ++ b0).extractLsb' 31 1
    _ = (b3 ++ b2 ++ b1).extractLsb' 23 1 := BitVec.extractLsb'_append_eq_of_le (by decide)
    _ = (b3 ++ b2).extractLsb' 15 1 := BitVec.extractLsb'_append_eq_of_le (by decide)
    _ = b3.extractLsb' 7 1 := BitVec.extractLsb'_append_eq_of_le (by decide)

/-- R132: the exponent lies across the two upper bytes. -/
theorem floatExponent_le32 (b0 b1 b2 b3 : Byte) :
    floatExponent (le32 b0 b1 b2 b3) = b3.extractLsb' 0 7 ++ b2.extractLsb' 7 1 :=
  calc (b3 ++ b2 ++ b1 ++ b0).extractLsb' 23 8
    _ = (b3 ++ b2 ++ b1).extractLsb' 15 8 := BitVec.extractLsb'_append_eq_of_le (by decide)
    _ = (b3 ++ b2).extractLsb' 7 8 := BitVec.extractLsb'_append_eq_of_le (by decide)
    _ = b3.extractLsb' 0 7 ++ b2.extractLsb' 7 1 := extractLsb'_append_across (start := 7) (lenLo := 1) rfl 7 b3 b2

/-- R132: the fraction is the rest of the second highest byte and the two lower bytes whole. -/
theorem floatFraction_le32 (b0 b1 b2 b3 : Byte) :
    floatFraction (le32 b0 b1 b2 b3) = b2.extractLsb' 0 7 ++ b1 ++ b0 :=
  calc (b3 ++ b2 ++ b1 ++ b0).extractLsb' 0 23
    _ = (b3 ++ b2 ++ b1).extractLsb' 0 15 ++ b0.extractLsb' 0 8 :=
      extractLsb'_append_across (start := 0) (lenLo := 8) rfl 15 (b3 ++ b2 ++ b1) b0
    _ = (b3 ++ b2).extractLsb' 0 7 ++ b1.extractLsb' 0 8 ++ b0.extractLsb' 0 8 :=
      congrArg (· ++ b0.extractLsb' 0 8) (extractLsb'_append_across (start := 0) (lenLo := 8) rfl 7 (b3 ++ b2) b1)
    _ = b2.extractLsb' 0 7 ++ b1 ++ b0 := by
      rw [BitVec.extractLsb'_append_eq_of_add_le (by decide), BitVec.extractLsb'_eq_self, BitVec.extractLsb'_eq_self]

/-- Settles O50: the fields recombine, and each is the slice of the wire bytes it overlaps. -/
theorem floatFieldLayout : Obligations.FloatFieldLayout :=
  ⟨floatPattern_fields, fun b0 b1 b2 b3 =>
    ⟨floatSign_le32 b0 b1 b2 b3, floatExponent_le32 b0 b1 b2 b3, floatFraction_le32 b0 b1 b2 b3⟩⟩

/-! ### The values of examples -/

/-- A pattern that reads as (-1)^neg x m x 2^e denotes that rational number. -/
theorem toRat_of_finite {w : Word} {neg : Bool} {m : Nat} {e : Int} {q : ℚ} (hw : floatValue w = .finite neg m e)
    (hq : (if neg then -1 else 1) * (m : ℚ) * (2 : ℚ) ^ e = q) : (floatValue w).toRat = some q := by
  rw [hw, FloatValue.toRat, hq]

/-- Settles O51: each pattern is read field by field; a finite one by its mantissa and its power of two. -/
theorem floatValuesOfExamples : Obligations.FloatValuesOfExamples := by
  unfold Obligations.FloatValuesOfExamples
  have hone : floatValue 0x3F800000 = .finite false 0x800000 (-23) := by decide
  have hhalf : floatValue 0x3F000000 = .finite false 0x800000 (-24) := by decide
  have hminusTwo : floatValue 0xC0000000 = .finite true 0x800000 (-22) := by decide
  have hmains : floatValue 0x43660000 = .finite false 0xE60000 (-16) := by decide
  have hhalfMains : floatValue 0x42E60000 = .finite false 0xE60000 (-17) := by decide
  exact ⟨toRat_of_finite hone (by norm_num), toRat_of_finite hhalf (by norm_num),
    toRat_of_finite hminusTwo (by norm_num), toRat_of_finite hmains (by norm_num),
    toRat_of_finite hhalfMains (by norm_num), by decide, by decide, by decide, by decide, by decide, by decide,
    by decide⟩

end Sys2Proof.Machine
end
